-- ==== Sys2Proof/Word.lean ====
section
/-! DEFINITION. The widths of 00_scope.md R8: words, halfwords, bytes and the fields of an encoded instruction.
A register index names one of the 32 registers and is never added or shifted, so it is a `Fin 32`. -/

namespace Sys2Proof

/-- A 32-bit word: register contents, pc, address, instruction word (R8). -/
abbrev Word := BitVec 32

/-- A 16-bit halfword (R61). -/
abbrev Half := BitVec 16

/-- One byte of memory (R8: memory is byte-addressed). -/
abbrev Byte := BitVec 8

/-- The index of a general register, 0 .. 31 (R8: register indices are 5 bits). -/
abbrev RegIdx := Fin 32

/-- The 5-bit shift amount (R8). -/
abbrev Shamt := BitVec 5

/-- The 16-bit immediate (R8). -/
abbrev Imm := BitVec 16

/-- The 26-bit jump target, a word index (R8, R87). -/
abbrev Target := BitVec 26

/-- The 6-bit opcode or funct field (R8). -/
abbrev OpField := BitVec 6

end Sys2Proof
end

