-- ==== Sys2Proof/Config.lean ====
section
/-! DEFINITION. The parameters of 00_scope.md R9 and the values the spec leaves open.
`MEM_POLICY`, `MEM_CAPACITY`, `LOAD_BASE` and `OPCODE_MAP` are plain data that the machine's state carries (`Params`),
with the defaults of R9 (that of `OPCODE_MAP`, and `Config.params`, stand in Decode.lean); `CLOCK_HZ` and the CPIs are OPEN, so their first values are
constants with no body. -/

namespace Sys2Proof

/-- `MEM_POLICY` (R9, 20_memory.md R51): a bounded array of `capacity` bytes, whose out-of-range accesses fault,
or a sparse map in which every 32-bit address is valid. -/
inductive MemPolicy where
  | fixed (capacity : Nat)
  | sparse
  deriving DecidableEq, Repr

/-- The clock configuration (10_state.md R32): `CLOCK_HZ`, "a positive number", held as a rational
(log 4), and the cycles per instruction of each class, "non-negative integers". -/
structure ClockConfig where
  clockHz : Rat
  cpiR    : Nat
  cpiI    : Nat
  cpiJ    : Nat
  deriving DecidableEq, Repr

/-- `OPCODE_MAP` (R9): the six-bit number of each of the 26 instructions, a funct for the ten R-type ones and
an opcode for the others. -/
structure OpcodeMap where
  fnAdd  : OpField
  fnSub  : OpField
  fnAnd  : OpField
  fnOr   : OpField
  fnNor  : OpField
  fnSll  : OpField
  fnSrl  : OpField
  fnSlt  : OpField
  fnSltu : OpField
  fnJr   : OpField
  opAddi  : OpField
  opAndi  : OpField
  opOri   : OpField
  opSlti  : OpField
  opSltiu : OpField
  opLw  : OpField
  opLh  : OpField
  opLb  : OpField
  opLhu : OpField
  opSw  : OpField
  opSh  : OpField
  opSb  : OpField
  opBeq : OpField
  opBne : OpField
  opJ   : OpField
  opJal : OpField
  deriving DecidableEq, Repr

/-- The parameters of R9 that are fixed for a machine: no step and no host action changes them. `CLOCK_HZ` and the CPIs
are the clock configuration. -/
structure Params where
  memPolicy : MemPolicy
  loadBase  : Word
  opcodeMap : OpcodeMap
  deriving DecidableEq, Repr

/-- The default of `MEM_CAPACITY`: "fixed capacity (default 4096 bytes)" (R9, R51). -/
def Config.memCapacity : Nat := 4096

/-- The default of `MEM_POLICY`: `Fixed` (R9). -/
def Config.memPolicy : MemPolicy := .fixed Config.memCapacity

/-- The default of `LOAD_BASE`: 0 (R9; log 3). -/
def Config.loadBase : Word := 0

/-- `CPI_R`, OPEN (R9; 91_not_in_source.md N19): free. -/
opaque Config.cpiR : Nat

/-- `CPI_I`, OPEN: free. -/
opaque Config.cpiI : Nat

/-- `CPI_J`, OPEN: free. -/
opaque Config.cpiJ : Nat

/-- One less than the numerator of the first `CLOCK_HZ`, OPEN: free. -/
opaque Config.clockHzNumPred : Nat

/-- One less than the denominator of the first `CLOCK_HZ`, OPEN: free. -/
opaque Config.clockHzDenPred : Nat

/-- The first value of `CLOCK_HZ`: any positive rational, nothing else is known of it (R9, R341). -/
def Config.clockHz : Rat := ((Config.clockHzNumPred : Rat) + 1) / ((Config.clockHzDenPred : Rat) + 1)

/-- The first clock configuration (70_reset_and_hazards.md R360: "its first value is the OPEN parameters"). -/
def Config.clock : ClockConfig :=
  { clockHz := Config.clockHz, cpiR := Config.cpiR, cpiI := Config.cpiI, cpiJ := Config.cpiJ }

/-- What an unused 32-bit signal of the units carries (a `-` of 40_units.md R127; `y` of the ALU for EQ, R133):
free. -/
opaque Config.unusedSignal : Word

/-- What an unused shift-amount input of the ALU carries (a `-` in the `sh` column of R127): free. -/
opaque Config.unusedShamt : Shamt

end Sys2Proof
end

