-- ==== Sys2Proof/Syntax.lean ====
section
/-! DEFINITION. The instructions: one constructor of `Instr` per row of spec/opcode_table.json, with exactly the
fields the instruction uses (30_encoding.md R93: the others are ignored), in the operand order of 45_assembler.md
R287. Also the three-variant decoded word of 40_units.md R124. -/

namespace Sys2Proof

/-- The format of a word, which is also the statistics class of its instruction (00_scope.md R15, R81, R340). -/
inductive Format where
  | r | i | j
  deriving DecidableEq, Repr

/-- The ten R-type mnemonics (30_encoding.md R89). -/
inductive RMnem where
  | add | sub | and | or | nor | sll | srl | slt | sltu | jr
  deriving DecidableEq, Repr

/-- The fourteen I-type mnemonics (30_encoding.md R88). -/
inductive IMnem where
  | addi | andi | ori | slti | sltiu | lw | lh | lb | lhu | sw | sh | sb | beq | bne
  deriving DecidableEq, Repr

/-- The two J-type mnemonics (30_encoding.md R88). -/
inductive JMnem where
  | j | jal
  deriving DecidableEq, Repr

/-- One of the 26 mnemonics (R120). The sentinel `unknown` of R91 is `none` of `Option Mnemonic`. -/
inductive Mnemonic where
  | r (m : RMnem)
  | i (m : IMnem)
  | j (m : JMnem)
  deriving DecidableEq, Repr

/-- The decoded word, "a closed tagged union with three variants (R/I/J), each carrying only its own fields"
(40_units.md R124). A mnemonic of `none` is the sentinel `unknown`. -/
inductive Decoded where
  | rType (word : Word) (mnem : Option RMnem) (rs rt rd : RegIdx) (shamt : Shamt) (funct : OpField)
  | iType (word : Word) (mnem : Option IMnem) (opcode : OpField) (rs rt : RegIdx) (imm : Imm)
  | jType (word : Word) (mnem : Option JMnem) (opcode : OpField) (target : Target)
  deriving DecidableEq, Repr

/-- The 26 instructions of 00_scope.md R2. -/
inductive Instr where
  | add  (rd rs rt : RegIdx)
  | sub  (rd rs rt : RegIdx)
  | and  (rd rs rt : RegIdx)
  | or   (rd rs rt : RegIdx)
  | nor  (rd rs rt : RegIdx)
  | sll  (rd rt : RegIdx) (shamt : Shamt)
  | srl  (rd rt : RegIdx) (shamt : Shamt)
  | slt  (rd rs rt : RegIdx)
  | sltu (rd rs rt : RegIdx)
  | jr   (rs : RegIdx)
  | addi  (rt rs : RegIdx) (imm : Imm)
  | andi  (rt rs : RegIdx) (imm : Imm)
  | ori   (rt rs : RegIdx) (imm : Imm)
  | slti  (rt rs : RegIdx) (imm : Imm)
  | sltiu (rt rs : RegIdx) (imm : Imm)
  | lw  (rt rs : RegIdx) (imm : Imm)
  | lh  (rt rs : RegIdx) (imm : Imm)
  | lb  (rt rs : RegIdx) (imm : Imm)
  | lhu (rt rs : RegIdx) (imm : Imm)
  | sw  (rt rs : RegIdx) (imm : Imm)
  | sh  (rt rs : RegIdx) (imm : Imm)
  | sb  (rt rs : RegIdx) (imm : Imm)
  | beq (rs rt : RegIdx) (imm : Imm)
  | bne (rs rt : RegIdx) (imm : Imm)
  | j   (target : Target)
  | jal (target : Target)
  deriving DecidableEq, Repr

end Sys2Proof
end

