-- ==== Sys2Proof/WellFormed.lean ====
section
/-! DEFINITION. What makes the model's data well formed. An `Instr` needs no check: each operand's range is its
type (a register index is a `Fin 32`, the other fields have their widths), and every operand value is admitted
(30_encoding.md R90). What can be ill formed is the machine's configuration: the opcode map, the memory parameters
and the clock. Each check has a smoke test with a term it refuses in Tests/Slice0.lean. -/

namespace Sys2Proof

/-- The ten functs of a map, in the order of the constructors of `RMnem`. -/
def OpcodeMap.functs (m : OpcodeMap) : List OpField :=
  [m.fnAdd, m.fnSub, m.fnAnd, m.fnOr, m.fnNor, m.fnSll, m.fnSrl, m.fnSlt, m.fnSltu, m.fnJr]

/-- The fourteen I-type opcodes of a map, in the order of the constructors of `IMnem`. -/
def OpcodeMap.iOpcodes (m : OpcodeMap) : List OpField :=
  [m.opAddi, m.opAndi, m.opOri, m.opSlti, m.opSltiu, m.opLw, m.opLh, m.opLb, m.opLhu, m.opSw, m.opSh, m.opSb,
   m.opBeq, m.opBne]

/-- The two J-type opcodes of a map, in the order of the constructors of `JMnem`. -/
def OpcodeMap.jOpcodes (m : OpcodeMap) : List OpField := [m.opJ, m.opJal]

/-- Two R-type instructions never share a funct. -/
def OpcodeMap.functsDistinct (m : OpcodeMap) : Bool := decide m.functs.Nodup

/-- Two I-type instructions never share an opcode. -/
def OpcodeMap.iOpcodesDistinct (m : OpcodeMap) : Bool := decide m.iOpcodes.Nodup

/-- j and jal never share an opcode. -/
def OpcodeMap.jOpcodesDistinct (m : OpcodeMap) : Bool := decide m.jOpcodes.Nodup

/-- The I-type opcodes keep out of the R-type opcode 0 and the J-type opcodes 0x02 and 0x03 (30_encoding.md R81). -/
def OpcodeMap.iOpcodesInFormat (m : OpcodeMap) : Bool := m.iOpcodes.all fun op => op != 0 && op != 2 && op != 3

/-- The J-type opcodes are 0x02 and 0x03 (R81). -/
def OpcodeMap.jOpcodesInFormat (m : OpcodeMap) : Bool := m.jOpcodes.all fun op => op == 2 || op == 3

/-- An opcode map under which every instruction has one encoding of its own in the format R81 gives it. -/
def OpcodeMap.wellFormed (m : OpcodeMap) : Bool :=
  m.functsDistinct && m.iOpcodesDistinct && m.jOpcodesDistinct && m.iOpcodesInFormat && m.jOpcodesInFormat

/-- The capacity of a `Fixed` memory lies within the 32-bit address space (20_memory.md R51: "Addresses are 32-bit
unsigned values"; log 18). -/
def MemPolicy.wellFormed (p : MemPolicy) : Bool :=
  match p with
  | .fixed capacity => decide (capacity ≤ 2 ^ 32)
  | .sparse => true

/-- The parameters of a machine: a memory policy and an opcode map, each well formed. -/
def Params.wellFormed (p : Params) : Bool := p.memPolicy.wellFormed && p.opcodeMap.wellFormed

/-- `CLOCK_HZ` "must be positive" (60_exceptions.md R341). -/
def ClockConfig.wellFormed (c : ClockConfig) : Bool := decide (0 < c.clockHz)

/-- A program of `n` words fits the memory (70_reset_and_hazards.md R361: under `Fixed`, `int(LOAD_BASE) + 4*N`
is at most the capacity). -/
def Params.fits (p : Params) (n : Nat) : Bool :=
  match p.memPolicy with
  | .fixed capacity => decide (p.loadBase.toNat + 4 * n ≤ capacity)
  | .sparse => true

end Sys2Proof
end

