-- ==== Sys2Proof/Decode.lean ====
section
/-! DEFINITION. The decoder, total on any word and on any bytes, rejecting by name (40_units.md R121 to R124,
30_encoding.md R80 to R95), and after it the encoder (R96). The opcode and funct numbers are the parameter
`OPCODE_MAP`, whose default is the table of 30_encoding.md R88 and R89. -/

namespace Sys2Proof

/-! ## The default opcode map -/

/-- The default of `OPCODE_MAP`: the tables of 30_encoding.md R88 and R89.
UNVERIFIED (log 1): the spec takes all numbers but 0x00 and {0x02, 0x03} from general knowledge of MIPS-I. -/
def defaultOpcodeMap : OpcodeMap where
  fnAdd  := 0x20
  fnSub  := 0x22
  fnAnd  := 0x24
  fnOr   := 0x25
  fnNor  := 0x27
  fnSll  := 0x00
  fnSrl  := 0x02
  fnSlt  := 0x2A
  fnSltu := 0x2B
  fnJr   := 0x08
  opAddi  := 0x08
  opAndi  := 0x0C
  opOri   := 0x0D
  opSlti  := 0x0A
  opSltiu := 0x0B
  opLw  := 0x23
  opLh  := 0x21
  opLb  := 0x20
  opLhu := 0x25
  opSw  := 0x2B
  opSh  := 0x29
  opSb  := 0x28
  opBeq := 0x04
  opBne := 0x05
  opJ   := 0x02
  opJal := 0x03

/-- The default parameters of a machine (00_scope.md R9). -/
def Config.params : Params :=
  { memPolicy := Config.memPolicy, loadBase := Config.loadBase, opcodeMap := defaultOpcodeMap }

/-- The funct of an R-type mnemonic (R89). -/
def OpcodeMap.functOf (m : OpcodeMap) : RMnem → OpField
  | .add  => m.fnAdd
  | .sub  => m.fnSub
  | .and  => m.fnAnd
  | .or   => m.fnOr
  | .nor  => m.fnNor
  | .sll  => m.fnSll
  | .srl  => m.fnSrl
  | .slt  => m.fnSlt
  | .sltu => m.fnSltu
  | .jr   => m.fnJr

/-- The opcode of an I-type mnemonic (R88). -/
def OpcodeMap.iOpcodeOf (m : OpcodeMap) : IMnem → OpField
  | .addi  => m.opAddi
  | .andi  => m.opAndi
  | .ori   => m.opOri
  | .slti  => m.opSlti
  | .sltiu => m.opSltiu
  | .lw  => m.opLw
  | .lh  => m.opLh
  | .lb  => m.opLb
  | .lhu => m.opLhu
  | .sw  => m.opSw
  | .sh  => m.opSh
  | .sb  => m.opSb
  | .beq => m.opBeq
  | .bne => m.opBne

/-- The opcode of a J-type mnemonic (R88). -/
def OpcodeMap.jOpcodeOf (m : OpcodeMap) : JMnem → OpField
  | .j   => m.opJ
  | .jal => m.opJal

/-- The ten R-type mnemonics as a list. -/
def allRMnems : List RMnem := [.add, .sub, .and, .or, .nor, .sll, .srl, .slt, .sltu, .jr]

/-- The fourteen I-type mnemonics as a list. -/
def allIMnems : List IMnem :=
  [.addi, .andi, .ori, .slti, .sltiu, .lw, .lh, .lb, .lhu, .sw, .sh, .sb, .beq, .bne]

/-- The two J-type mnemonics as a list. -/
def allJMnems : List JMnem := [.j, .jal]

/-- The row of R89 whose funct equals `f`; `none` is the sentinel `unknown` (R91, R123). -/
def OpcodeMap.rMnem (m : OpcodeMap) (f : OpField) : Option RMnem := allRMnems.find? fun k => m.functOf k == f

/-- The I-type row of R88 whose opcode equals `op`, if any (R123). -/
def OpcodeMap.iMnem (m : OpcodeMap) (op : OpField) : Option IMnem := allIMnems.find? fun k => m.iOpcodeOf k == op

/-- The J-type row of R88 whose opcode equals `op`, if any (R123). -/
def OpcodeMap.jMnem (m : OpcodeMap) (op : OpField) : Option JMnem := allJMnems.find? fun k => m.jOpcodeOf k == op

/-! ## Field extraction (R121), the same slices for every word -/

/-- `instr[31:26]`. -/
def opcodeField (w : Word) : OpField := w.extractLsb' 26 6

/-- `instr[25:21]`. -/
def rsField (w : Word) : RegIdx := (w.extractLsb' 21 5).toFin

/-- `instr[20:16]`. -/
def rtField (w : Word) : RegIdx := (w.extractLsb' 16 5).toFin

/-- `instr[15:11]`. -/
def rdField (w : Word) : RegIdx := (w.extractLsb' 11 5).toFin

/-- `instr[10:6]`. -/
def shamtField (w : Word) : Shamt := w.extractLsb' 6 5

/-- `instr[5:0]`. -/
def functField (w : Word) : OpField := w.extractLsb' 0 6

/-- `instr[15:0]`. -/
def immField (w : Word) : Imm := w.extractLsb' 0 16

/-- `instr[25:0]`. -/
def targetField (w : Word) : Target := w.extractLsb' 0 26

/-- The format tag: "opcode 0 is always R-type; opcodes 0x02/0x03 are always J-type; all others are I-type"
(30_encoding.md R81, 40_units.md R122). -/
def formatOf (op : OpField) : Format :=
  if op = 0 then .r else if op = 2 ∨ op = 3 then .j else .i

/-! ## The decoder -/

/-- Decoding of a word, total: the format by the opcode alone, that format's fields, and the mnemonic or `unknown`
(R91, R121 to R124). -/
def decodedWith (m : OpcodeMap) (w : Word) : Decoded :=
  match formatOf (opcodeField w) with
  | .r => .rType w (m.rMnem (functField w)) (rsField w) (rtField w) (rdField w) (shamtField w) (functField w)
  | .i => .iType w (m.iMnem (opcodeField w)) (opcodeField w) (rsField w) (rtField w) (immField w)
  | .j => .jType w (m.jMnem (opcodeField w)) (opcodeField w) (targetField w)

/-- Why some bytes are no instruction of this hardware. -/
inductive DecodeError where
  /-- Fewer than the four bytes of an instruction word (R80). -/
  | truncated
  /-- The opcode is not in R88: the mnemonic is `unknown` (R91). -/
  | unknownOpcode (opcode : OpField)
  /-- The opcode is 0 and the funct is not in R89: the mnemonic is `unknown` (R91). -/
  | unknownFunct (funct : OpField)
  deriving DecidableEq, Repr

/-- The instruction of an R-type mnemonic, from the fields it uses (R89, R93). -/
def rInstr (k : RMnem) (rs rt rd : RegIdx) (shamt : Shamt) : Instr :=
  match k with
  | .add  => .add rd rs rt
  | .sub  => .sub rd rs rt
  | .and  => .and rd rs rt
  | .or   => .or rd rs rt
  | .nor  => .nor rd rs rt
  | .sll  => .sll rd rt shamt
  | .srl  => .srl rd rt shamt
  | .slt  => .slt rd rs rt
  | .sltu => .sltu rd rs rt
  | .jr   => .jr rs

/-- The instruction of an I-type mnemonic (R88). -/
def iInstr (k : IMnem) (rs rt : RegIdx) (imm : Imm) : Instr :=
  match k with
  | .addi  => .addi rt rs imm
  | .andi  => .andi rt rs imm
  | .ori   => .ori rt rs imm
  | .slti  => .slti rt rs imm
  | .sltiu => .sltiu rt rs imm
  | .lw  => .lw rt rs imm
  | .lh  => .lh rt rs imm
  | .lb  => .lb rt rs imm
  | .lhu => .lhu rt rs imm
  | .sw  => .sw rt rs imm
  | .sh  => .sh rt rs imm
  | .sb  => .sb rt rs imm
  | .beq => .beq rs rt imm
  | .bne => .bne rs rt imm

/-- The instruction of a J-type mnemonic (R88). -/
def jInstr (k : JMnem) (target : Target) : Instr :=
  match k with
  | .j   => .j target
  | .jal => .jal target

/-- The instruction a decoded word stands for, or why it is `unknown`. -/
def instrOfDecoded (d : Decoded) : Except DecodeError Instr :=
  match d with
  | .rType _ (some k) rs rt rd shamt _ => .ok (rInstr k rs rt rd shamt)
  | .rType _ none _ _ _ _ funct => .error (.unknownFunct funct)
  | .iType _ (some k) _ rs rt imm => .ok (iInstr k rs rt imm)
  | .iType _ none opcode _ _ _ => .error (.unknownOpcode opcode)
  | .jType _ (some k) _ target => .ok (jInstr k target)
  | .jType _ none opcode _ => .error (.unknownOpcode opcode)

/-- Decoding a word to an instruction under an opcode map. -/
def decodeWith (m : OpcodeMap) (w : Word) : Except DecodeError Instr := instrOfDecoded (decodedWith m w)

/-- Decoding under the default opcode map. The machine decodes with the map it carries (`Params.opcodeMap`). -/
def decode (w : Word) : Except DecodeError Instr := decodeWith defaultOpcodeMap w

/-- Four bytes, the first at the lowest address, as a word: "byte 0 is least significant" (20_memory.md R55, R57). -/
def wordOfBytes (b0 b1 b2 b3 : Byte) : Word := ((b3 ++ b2) ++ (b1 ++ b0) : BitVec 32)

/-- Decoding the first four of some bytes under an opcode map, with the bytes left over (R80: every instruction is one
32-bit word). -/
def decodeBytesWith (m : OpcodeMap) (bytes : List Byte) : Except DecodeError (Instr × List Byte) :=
  match bytes with
  | b0 :: b1 :: b2 :: b3 :: rest =>
    match decodeWith m (wordOfBytes b0 b1 b2 b3) with
    | .ok i => .ok (i, rest)
    | .error e => .error e
  | _ => .error .truncated

/-- Decoding bytes under the default opcode map. -/
def decodeBytes (bytes : List Byte) : Except DecodeError (Instr × List Byte) := decodeBytesWith defaultOpcodeMap bytes

/-- The four bytes of a word, the least significant first (20_memory.md R56). -/
def bytesOfWord (w : Word) : List Byte :=
  [w.extractLsb' 0 8, w.extractLsb' 8 8, w.extractLsb' 16 8, w.extractLsb' 24 8]

/-- The low `nbits` bits of `w` as an instruction word, every bit above them 0. -/
def tableWord (nbits w : Nat) : Word := BitVec.ofNat 32 (w % 2 ^ nbits)

/-- The instruction the decoder reads from an opcode-table word laid out in memory order. -/
def decodeTableWord (nbits w : Nat) : Option Instr :=
  match decodeBytes (bytesOfWord (tableWord nbits w)) with
  | .ok (i, _) => some i
  | .error _ => none

/-! ## The encoder (R96, R295) -/

/-- The R-type builder: `0 ++ rs ++ rt ++ rd ++ shamt ++ funct`. -/
def buildR (rs rt rd : RegIdx) (shamt : Shamt) (funct : OpField) : Word :=
  (0 : BitVec 6) ++ (BitVec.ofFin rs : BitVec 5) ++ (BitVec.ofFin rt : BitVec 5) ++ (BitVec.ofFin rd : BitVec 5)
    ++ shamt ++ funct

/-- The I-type builder: `opcode ++ rs ++ rt ++ imm`. -/
def buildI (opcode : OpField) (rs rt : RegIdx) (imm : Imm) : Word :=
  opcode ++ (BitVec.ofFin rs : BitVec 5) ++ (BitVec.ofFin rt : BitVec 5) ++ imm

/-- The J-type builder: `opcode ++ target`. -/
def buildJ (opcode : OpField) (target : Target) : Word := opcode ++ target

/-- The word of an instruction under an opcode map; the fields it does not use are 0 (45_assembler.md R287). -/
def encodeWith (m : OpcodeMap) : Instr → Word
  | .add rd rs rt  => buildR rs rt rd 0 m.fnAdd
  | .sub rd rs rt  => buildR rs rt rd 0 m.fnSub
  | .and rd rs rt  => buildR rs rt rd 0 m.fnAnd
  | .or rd rs rt   => buildR rs rt rd 0 m.fnOr
  | .nor rd rs rt  => buildR rs rt rd 0 m.fnNor
  | .sll rd rt sa  => buildR 0 rt rd sa m.fnSll
  | .srl rd rt sa  => buildR 0 rt rd sa m.fnSrl
  | .slt rd rs rt  => buildR rs rt rd 0 m.fnSlt
  | .sltu rd rs rt => buildR rs rt rd 0 m.fnSltu
  | .jr rs         => buildR rs 0 0 0 m.fnJr
  | .addi rt rs imm  => buildI m.opAddi rs rt imm
  | .andi rt rs imm  => buildI m.opAndi rs rt imm
  | .ori rt rs imm   => buildI m.opOri rs rt imm
  | .slti rt rs imm  => buildI m.opSlti rs rt imm
  | .sltiu rt rs imm => buildI m.opSltiu rs rt imm
  | .lw rt rs imm  => buildI m.opLw rs rt imm
  | .lh rt rs imm  => buildI m.opLh rs rt imm
  | .lb rt rs imm  => buildI m.opLb rs rt imm
  | .lhu rt rs imm => buildI m.opLhu rs rt imm
  | .sw rt rs imm  => buildI m.opSw rs rt imm
  | .sh rt rs imm  => buildI m.opSh rs rt imm
  | .sb rt rs imm  => buildI m.opSb rs rt imm
  | .beq rs rt imm => buildI m.opBeq rs rt imm
  | .bne rs rt imm => buildI m.opBne rs rt imm
  | .j target   => buildJ m.opJ target
  | .jal target => buildJ m.opJal target

/-- Encoding under the default opcode map. -/
def encode (i : Instr) : Word := encodeWith defaultOpcodeMap i

end Sys2Proof
end

