-- ==== Sys2Proof/Machine/State.lean ====
section
/-! DEFINITION. The machine's state (10_state.md R35), its faults (60_exceptions.md R321, R322) and the state after
reset (70_reset_and_hazards.md R360). All of it is plain data. -/

namespace Sys2Proof.Machine

/-- The width of a memory access (20_memory.md R61). -/
inductive AccessWidth where
  | byte | half | word
  deriving DecidableEq, Repr

/-- Why a step stops: the machine's two faults (60_exceptions.md R324). A faulting step commits nothing (R325). -/
inductive Fault where
  /-- Raised by `step` when the fetched word decodes to `unknown` (R321); it records the word and its pc. Safe: the
  spec names this fault, and the machine stops where the spec stops it. -/
  | unsupportedInstruction (word : Word) (pc : Word)
  /-- Raised by the fetch and by every load and store whose access fails the range check of R53 (R322), under the
  `Fixed` policy only; it records the address, the width and the pc of the instruction. Safe: the spec names it. -/
  | addressOutOfRange (addr : Word) (width : AccessWidth) (pc : Word)
  deriving DecidableEq, Repr

/-- Why an instruction has no meaning. -/
inductive Refusal where
  /-- Raised by an arm of `exec` whose instruction has no meaning yet. Safe: nothing is claimed of it. No arm of this
  model answers it. -/
  | notModelled (mnemonic : String)
  deriving DecidableEq, Repr

/-- The execution engine's state (10_state.md R29). -/
inductive Mode where
  | idle | running
  deriving DecidableEq, Repr

/-- The execution statistics (10_state.md R31): all unbounded. -/
structure Stats where
  countR : Nat
  countI : Nat
  countJ : Nat
  cycles : Nat
  deriving DecidableEq, Repr

/-- Byte memory as (address, byte) pairs, addresses strictly rising, no entry equal to what an unlisted address reads
as (`Memory.wf`). -/
abbrev Memory := List Host.Cell

/-- The whole state: the tuple `(x, pc, mem, code_end, mode, stats, clock)` of 10_state.md R35, the pause request of
60_exceptions.md R354, what the engine remembers of its last step for the host (R350, R351), and the parameters of
00_scope.md R9, which nothing changes. -/
structure State where
  /-- `x[0]` .. `x[31]` (R21); read and written only through `State.reg` and `State.setReg`. -/
  regs : Vector Word 32
  /-- The address of the instruction about to be fetched (R25). -/
  pc : Word
  /-- The one byte memory of code and data (20_memory.md R50). -/
  mem : Memory
  /-- The address just past the last loaded word (R28). -/
  codeEnd : Word
  /-- Idle or Running (R29). -/
  mode : Mode
  /-- A pause request made and not yet observed (60_exceptions.md R354; log 7). -/
  pauseRequested : Bool
  /-- The fault the engine has reported and the host has not answered (R350: "after a fault, either stop or skip";
  log 10). -/
  pendingFault : Option Fault
  /-- The instruction word of the last completed step since the load: the "current instruction" of the snapshot (R351;
  log 11). -/
  lastWord : Option Word
  /-- The statistics (R31). -/
  stats : Stats
  /-- The clock configuration (R32). -/
  clock : ClockConfig
  /-- `MEM_POLICY` with its capacity, `LOAD_BASE` and `OPCODE_MAP` (00_scope.md R9; log 1, log 2, log 3). -/
  params : Params
  deriving DecidableEq, Repr

/-- The state right after reset with no program loaded (70_reset_and_hazards.md R360 with N = 0; log 9). The clock's
first value is OPEN and stays free. -/
def State.reset : State where
  regs := Vector.replicate 32 0
  pc := Config.params.loadBase
  mem := []
  codeEnd := Config.params.loadBase
  mode := .idle
  pauseRequested := false
  pendingFault := none
  lastWord := none
  stats := { countR := 0, countI := 0, countJ := 0, cycles := 0 }
  clock := Config.clock
  params := Config.params

end Sys2Proof.Machine
end

