-- ==== Sys2Proof/Machine/Operands.lean ====
section
/-! DEFINITION. Every operand form the spec gives: immediate extension, the effective address, and the targets of the
PC unit (00_scope.md R12; 30_encoding.md R85 to R87; 40_units.md R136, R141 to R144; 43_load_store.md R220). -/

namespace Sys2Proof.Machine

/-- `sext_32` of a 16-bit value (R12, R136). -/
def sext16 (v : Half) : Word := v.signExtend 32

/-- `zext_32` of a 16-bit value (R12). -/
def zext16 (v : Half) : Word := v.setWidth 32

/-- `sext_32` of a byte (R12). -/
def sext8 (v : Byte) : Word := v.signExtend 32

/-- `pc_plus4 = pc + 4` modulo 2^32 (R141). -/
def pcPlus4 (pc : Word) : Word := pc + 4

/-- The branch target `pc + 4 + (sext_32(imm) << 2)` modulo 2^32 (R142, R86). -/
def branchTarget (pc : Word) (imm : Imm) : Word := pcPlus4 pc + (sext16 imm <<< 2)

/-- The jump target `(pc & 0xF0000000) | zext_32(target << 2)`, with the jump's own pc (R143, R87). -/
def jumpTarget (pc : Word) (target : Target) : Word := (pc &&& 0xF0000000#32) ||| (target.setWidth 32 <<< 2)

/-- The effective address `x[rs] + sext_32(imm)` modulo 2^32, from the base register's value (R220). -/
def effectiveAddress (base : Word) (imm : Imm) : Word := base + sext16 imm

/-- How many bytes an access moves (20_memory.md R61). -/
def AccessWidth.bytes : AccessWidth → Nat
  | .byte => 1
  | .half => 2
  | .word => 4

end Sys2Proof.Machine
end

