-- ==== Sys2Proof/Machine/Flags.lean ====
section
/-! DEFINITION. The machine has no status flags (10_state.md R33). What stands in their place is here: the comparisons,
which write 0 or 1 to a register or select a branch (40_units.md R133, R135). -/

namespace Sys2Proof.Machine

/-- `signed(a) < signed(b)` as 1 or 0 (R135, R177). -/
def setLessSigned (a b : Word) : Word := if a.toInt < b.toInt then 1 else 0

/-- `unsigned(a) < unsigned(b)` as 1 or 0 (R135, R178). -/
def setLessUnsigned (a b : Word) : Word := if a.toNat < b.toNat then 1 else 0

/-- All 32 bits equal (R133). -/
def wordsEqual (a b : Word) : Bool := a == b

end Sys2Proof.Machine
end

