-- ==== Sys2Proof/Machine/Ops.lean ====
section
/-! DEFINITION. The named operations over memory, registers, pc and statistics that every meaning uses, the fetch, and
what a fault is (00_scope.md R13, R14; 10_state.md R22; 20_memory.md; 60_exceptions.md R325, R340).

There is no exception to take: "The machine has no architectural exception mechanism: no cause register, no exception
vector, no saved-PC register and no handler mode" (60_exceptions.md R320), and no return from one (R328). A fault ends
the step with no next state, so nothing is committed; the engine that reports it is Engine.lean. -/

namespace Sys2Proof.Machine

/-- The outcome of a step or of one instruction. -/
abbrev Result := Host.Outcome State Fault Refusal

/-! ## Registers -/

/-- `x[i]`, which is 0 when `i = 0` (R13, R22). -/
def State.reg (s : State) (i : RegIdx) : Word := if i = 0 then 0 else s.regs[i.val]

/-- `x[i] <- v`, without effect when `i = 0` (R13, R22). -/
def State.setReg (s : State) (i : RegIdx) (v : Word) : State :=
  if i = 0 then s else { s with regs := s.regs.set i.val v }

/-! ## Bytes of memory -/

/-- What an address that is not listed reads as: memory is zeroed (70_reset_and_hazards.md R360, 20_memory.md R51;
log 21). -/
def Memory.unlisted : Byte := 0

/-- The byte at an address. -/
def Memory.get : Memory → Nat → Byte
  | [], _ => Memory.unlisted
  | (a, b) :: rest, x => if x = a then b else Memory.get rest x

/-- The memory with one byte changed, in canonical form again. -/
def Memory.set : Memory → Nat → Byte → Memory
  | [], x, v => if v = Memory.unlisted then [] else [(x, v)]
  | (a, b) :: rest, x, v =>
    if x < a then (if v = Memory.unlisted then (a, b) :: rest else (x, v) :: (a, b) :: rest)
    else if x = a then (if v = Memory.unlisted then rest else (x, v) :: rest)
    else (a, b) :: Memory.set rest x v

/-- The canonical form: addresses strictly rising, no entry equal to what an unlisted address reads as. -/
abbrev Memory.wf (m : Memory) : Prop :=
  m.Pairwise (fun c d => c.1 < d.1) ∧ ∀ c ∈ m, c.2 ≠ Memory.unlisted

/-- Every listed address is below `bound`. -/
abbrev Memory.below (m : Memory) (bound : Nat) : Prop := ∀ c ∈ m, c.1 < bound

/-! ## Composition and decomposition, little-endian, in one place (20_memory.md R55, R56)

The byte addresses of an access are `A`, `A+1`, ... modulo 2^32 (R54); an access that passes the range check of a
`Fixed` memory never wraps. -/

/-- `MemRead(A, 1)`. -/
def Memory.readByte (m : Memory) (a : Word) : Byte := m.get a.toNat

/-- `MemRead(A, 2)`. -/
def Memory.readHalf (m : Memory) (a : Word) : Half := m.readByte (a + 1) ++ m.readByte a

/-- `MemRead(A, 4)`. -/
def Memory.readWord (m : Memory) (a : Word) : Word :=
  wordOfBytes (m.readByte a) (m.readByte (a + 1)) (m.readByte (a + 2)) (m.readByte (a + 3))

/-- `MemWrite(A, 1, v)`. -/
def Memory.writeByte (m : Memory) (a : Word) (v : Byte) : Memory := m.set a.toNat v

/-- `MemWrite(A, 2, v)`. -/
def Memory.writeHalf (m : Memory) (a : Word) (v : Half) : Memory :=
  (m.writeByte a (v.extractLsb' 0 8)).writeByte (a + 1) (v.extractLsb' 8 8)

/-- `MemWrite(A, 4, v)`. -/
def Memory.writeWord (m : Memory) (a : Word) (v : Word) : Memory :=
  (((m.writeByte a (v.extractLsb' 0 8)).writeByte (a + 1) (v.extractLsb' 8 8)).writeByte (a + 2)
    (v.extractLsb' 16 8)).writeByte (a + 3) (v.extractLsb' 24 8)

/-! ## The range check (20_memory.md R53, R54) -/

/-- Whether an access of `n` bytes at `a` is in range: under `Fixed` exactly when `int(A) + W <= MEM_CAPACITY`, under
`Sparse` always. -/
def accessInRange (p : MemPolicy) (a : Word) (n : Nat) : Bool :=
  match p with
  | .fixed capacity => decide (a.toNat + n ≤ capacity)
  | .sparse => true

/-- Whether the machine's memory holds all bytes of an access. -/
def State.inRange (s : State) (a : Word) (w : AccessWidth) : Bool := accessInRange s.params.memPolicy a w.bytes

/-- `ok` if the access is in range, else the fault of R322 with the pc of the instruction; the check comes before any
write (43_load_store.md R221). -/
def State.guardAccess (s : State) (a : Word) (w : AccessWidth) (ok : Result) : Result :=
  if s.inRange a w then ok else .fault (.addressOutOfRange a w s.pc)

/-! ## Statistics and commit (60_exceptions.md R340, 40_units.md R150) -/

/-- The cycles of a class under a clock configuration (R340). -/
def cyclesPer (c : ClockConfig) : Format → Nat
  | .r => c.cpiR
  | .i => c.cpiI
  | .j => c.cpiJ

/-- The statistics after one completed instruction of a class (R340). -/
def Stats.count (t : Stats) (k : Format) (c : ClockConfig) : Stats :=
  match k with
  | .r => { t with countR := t.countR + 1, cycles := t.cycles + cyclesPer c .r }
  | .i => { t with countI := t.countI + 1, cycles := t.cycles + cyclesPer c .i }
  | .j => { t with countJ := t.countJ + 1, cycles := t.cycles + cyclesPer c .j }

/-- The end of a completed step: the next pc and the statistics (R150). -/
def State.retire (s : State) (k : Format) (nextPc : Word) : State :=
  { s with pc := nextPc, stats := s.stats.count k s.clock }

/-- The shape of every instruction that writes one register and goes on at `pc + 4`. -/
def State.writeback (s : State) (k : Format) (d : RegIdx) (v : Word) : Result :=
  .next ((s.setReg d v).retire k (pcPlus4 s.pc))

/-- The shape of every load: the range check, then the loaded and extended value into a register (R221). -/
def State.loadInto (s : State) (d : RegIdx) (a : Word) (w : AccessWidth) (v : Word) : Result :=
  s.guardAccess a w (s.writeback .i d v)

/-- The shape of every store: the range check, then the changed memory (R221). -/
def State.storeTo (s : State) (a : Word) (w : AccessWidth) (m : Memory) : Result :=
  s.guardAccess a w (.next (({ s with mem := m } : State).retire .i (pcPlus4 s.pc)))

/-- The shape of every jump and branch that writes no register. -/
def State.goto (s : State) (k : Format) (target : Word) : Result := .next (s.retire k target)

/-! ## Fetch and completion (40_units.md R150, R151; 20_memory.md R60) -/

/-- `halted`: pc is not in `[LOAD_BASE, code_end)` (10_state.md R30). -/
def State.halted (s : State) : Bool :=
  !(decide (s.params.loadBase.toNat ≤ s.pc.toNat) && decide (s.pc.toNat < s.codeEnd.toNat))

/-- What a step that reports completion leaves: the engine Idle and nothing else changed (R151). -/
def State.complete (s : State) : State := { s with mode := .idle }

/-- The fetch: the four bytes at pc, whatever `pc mod 4` is (R60), or the range fault. -/
def State.fetch (s : State) : Except Fault Word :=
  if s.inRange s.pc .word then .ok (s.mem.readWord s.pc) else .error (.addressOutOfRange s.pc .word s.pc)

/-- The state with an instruction word placed at pc and the program's end moved past it when pc lies outside the
program: what `State.withFetchWord` stores (log 9). -/
def State.placeWord (s : State) (w : Word) : State :=
  { s with
    mem := if s.inRange s.pc .word then s.mem.writeWord s.pc w else s.mem
    codeEnd := if s.halted then pcPlus4 s.pc else s.codeEnd }

end Sys2Proof.Machine
end

