-- ==== Sys2Proof/Machine/ControlTransfer.lean ====
section
/-! DEFINITION. The meanings of beq, bne, j, jal and jr (44_control_transfer.md R250 to R258). No delay slot (R259), no
alignment check of the target (R260). -/

namespace Sys2Proof.Machine

/-- If `x[rs] = x[rt]` to the branch target, else to `pc + 4` (R250). -/
def execBeq (rs rt : RegIdx) (imm : Imm) (s : State) : Result :=
  s.goto .i (if wordsEqual (s.reg rs) (s.reg rt) then branchTarget s.pc imm else pcPlus4 s.pc)

/-- If `x[rs] != x[rt]` to the branch target, else to `pc + 4` (R251). -/
def execBne (rs rt : RegIdx) (imm : Imm) (s : State) : Result :=
  s.goto .i (if wordsEqual (s.reg rs) (s.reg rt) then pcPlus4 s.pc else branchTarget s.pc imm)

/-- `pc <- (pc & 0xF0000000) | (target << 2)` (R256). -/
def execJ (target : Target) (s : State) : Result := s.goto .j (jumpTarget s.pc target)

/-- `x[31] <- pc + 4`, then as j, both from the pc of the jal itself (R257). -/
def execJal (target : Target) (s : State) : Result := (s.setReg 31 (pcPlus4 s.pc)).goto .j (jumpTarget s.pc target)

/-- `pc <- x[rs]`, unaligned values included; counted as R-type (R258). -/
def execJr (rs : RegIdx) (s : State) : Result := s.goto .r (s.reg rs)

end Sys2Proof.Machine
end

