-- ==== Sys2Proof/Machine/IAlu.lean ====
section
/-! DEFINITION. The meanings of addi, andi, ori, slti and sltiu (42_i_alu.md R200 to R204). -/

namespace Sys2Proof.Machine

/-- `x[rt] <- x[rs] + sext_32(imm)` modulo 2^32, no overflow trap (R200). -/
def execAddi (rt rs : RegIdx) (imm : Imm) (s : State) : Result := s.writeback .i rt (s.reg rs + sext16 imm)

/-- `x[rt] <- x[rs] & zext_32(imm)` (R201). -/
def execAndi (rt rs : RegIdx) (imm : Imm) (s : State) : Result := s.writeback .i rt (s.reg rs &&& zext16 imm)

/-- `x[rt] <- x[rs] | zext_32(imm)` (R202). -/
def execOri (rt rs : RegIdx) (imm : Imm) (s : State) : Result := s.writeback .i rt (s.reg rs ||| zext16 imm)

/-- `x[rt] <- (signed(x[rs]) < signed(sext_32(imm))) ? 1 : 0` (R203). -/
def execSlti (rt rs : RegIdx) (imm : Imm) (s : State) : Result :=
  s.writeback .i rt (setLessSigned (s.reg rs) (sext16 imm))

/-- `x[rt] <- (unsigned(x[rs]) < unsigned(sext_32(imm))) ? 1 : 0`: sign-extended first, then compared unsigned
(R204). -/
def execSltiu (rt rs : RegIdx) (imm : Imm) (s : State) : Result :=
  s.writeback .i rt (setLessUnsigned (s.reg rs) (sext16 imm))

end Sys2Proof.Machine
end

