-- ==== Sys2Proof/Machine/LoadStore.lean ====
section
/-! DEFINITION. The meanings of lw, lh, lb, lhu, sw, sh and sb (43_load_store.md R220 to R228). A load whose `rt` is 0
still reads memory and can still fault (R221); no address needs alignment (20_memory.md R58). -/

namespace Sys2Proof.Machine

/-- `ea = x[rs] + sext_32(imm)` (R220). -/
def State.ea (s : State) (rs : RegIdx) (imm : Imm) : Word := effectiveAddress (s.reg rs) imm

/-- `x[rt] <- MemRead(ea, 4)` (R222). -/
def execLw (rt rs : RegIdx) (imm : Imm) (s : State) : Result :=
  s.loadInto rt (s.ea rs imm) .word (s.mem.readWord (s.ea rs imm))

/-- `x[rt] <- sext_32(MemRead(ea, 2))` (R223). -/
def execLh (rt rs : RegIdx) (imm : Imm) (s : State) : Result :=
  s.loadInto rt (s.ea rs imm) .half (sext16 (s.mem.readHalf (s.ea rs imm)))

/-- `x[rt] <- sext_32(MemRead(ea, 1))` (R224). -/
def execLb (rt rs : RegIdx) (imm : Imm) (s : State) : Result :=
  s.loadInto rt (s.ea rs imm) .byte (sext8 (s.mem.readByte (s.ea rs imm)))

/-- `x[rt] <- zext_32(MemRead(ea, 2))`; the offset is still sign-extended (R225). -/
def execLhu (rt rs : RegIdx) (imm : Imm) (s : State) : Result :=
  s.loadInto rt (s.ea rs imm) .half (zext16 (s.mem.readHalf (s.ea rs imm)))

/-- `MemWrite(ea, 4, x[rt])` (R226). -/
def execSw (rt rs : RegIdx) (imm : Imm) (s : State) : Result :=
  s.storeTo (s.ea rs imm) .word (s.mem.writeWord (s.ea rs imm) (s.reg rt))

/-- `MemWrite(ea, 2, x[rt][15:0])` (R227). -/
def execSh (rt rs : RegIdx) (imm : Imm) (s : State) : Result :=
  s.storeTo (s.ea rs imm) .half (s.mem.writeHalf (s.ea rs imm) ((s.reg rt).extractLsb' 0 16))

/-- `MemWrite(ea, 1, x[rt][7:0])` (R228). -/
def execSb (rt rs : RegIdx) (imm : Imm) (s : State) : Result :=
  s.storeTo (s.ea rs imm) .byte (s.mem.writeByte (s.ea rs imm) ((s.reg rt).extractLsb' 0 8))

end Sys2Proof.Machine
end

