-- ==== Sys2Proof/Machine/RAlu.lean ====
section
/-! DEFINITION. The meanings of add, sub, and, or, nor, sll, srl, slt and sltu (41_r_alu.md R170 to R178). -/

namespace Sys2Proof.Machine

/-- `x[rd] <- x[rs] + x[rt]` modulo 2^32, no overflow trap (R170). -/
def execAdd (rd rs rt : RegIdx) (s : State) : Result := s.writeback .r rd (s.reg rs + s.reg rt)

/-- `x[rd] <- x[rs] - x[rt]` modulo 2^32, no overflow trap (R171). -/
def execSub (rd rs rt : RegIdx) (s : State) : Result := s.writeback .r rd (s.reg rs - s.reg rt)

/-- `x[rd] <- x[rs] & x[rt]` (R172). -/
def execAnd (rd rs rt : RegIdx) (s : State) : Result := s.writeback .r rd (s.reg rs &&& s.reg rt)

/-- `x[rd] <- x[rs] | x[rt]` (R173). -/
def execOr (rd rs rt : RegIdx) (s : State) : Result := s.writeback .r rd (s.reg rs ||| s.reg rt)

/-- `x[rd] <- ~(x[rs] | x[rt])` (R174). -/
def execNor (rd rs rt : RegIdx) (s : State) : Result := s.writeback .r rd (~~~(s.reg rs ||| s.reg rt))

/-- `x[rd] <- (x[rt] << shamt)[31:0]` (R175). -/
def execSll (rd rt : RegIdx) (shamt : Shamt) (s : State) : Result := s.writeback .r rd (s.reg rt <<< shamt.toNat)

/-- `x[rd] <- x[rt] >>u shamt`, zeros entering at bit 31 (R176). -/
def execSrl (rd rt : RegIdx) (shamt : Shamt) (s : State) : Result := s.writeback .r rd (s.reg rt >>> shamt.toNat)

/-- `x[rd] <- (signed(x[rs]) < signed(x[rt])) ? 1 : 0` (R177). -/
def execSlt (rd rs rt : RegIdx) (s : State) : Result := s.writeback .r rd (setLessSigned (s.reg rs) (s.reg rt))

/-- `x[rd] <- (unsigned(x[rs]) < unsigned(x[rt])) ? 1 : 0` (R178). -/
def execSltu (rd rs rt : RegIdx) (s : State) : Result := s.writeback .r rd (setLessUnsigned (s.reg rs) (s.reg rt))

end Sys2Proof.Machine
end

