-- ==== Sys2Proof/Machine/Step.lean ====
section
/-! DEFINITION. One step of the machine (40_units.md R150, R151): the completion test, the fetch, the decode, the
execution, in that order, which is also the order of the faults (60_exceptions.md R327). -/

namespace Sys2Proof.Machine

/-- One fetch-decode-execute (R150). A step from outside the program reports completion: the engine goes Idle and
nothing else changes (R151; log 5). The decoder uses the machine's `OPCODE_MAP`
(R9); an `unknown` word faults at execution (R321). `mode` has no say in what a step
computes (10_state.md R29; log 6). -/
def step (s : State) : Host.Outcome State Fault Refusal :=
  if s.halted then .next s.complete
  else
    match s.fetch with
    | .error f => .fault f
    | .ok w =>
      match decodeWith s.params.opcodeMap w with
      | .error _ => .fault (.unsupportedInstruction w s.pc)
      | .ok i => exec i s

/-- The state with an opcode-table word stored where the next step fetches (log 9). -/
def State.withFetchWord (s : State) (nbits w : Nat) : State := s.placeWord (tableWord nbits w)

end Sys2Proof.Machine
end

