-- ==== Sys2Proof/Machine/Assembler.lean ====
section
/-! DEFINITION. The two-pass assembler of 45_assembler.md R280 to R298: from lines of text to instruction words. A line
is a list of characters; `assembleText` takes strings. Every malformed text is a `ParseError` (R285, R294, R296).
What the spec leaves open of the lexical details is log 12; names and operand orders are log 13. -/

namespace Sys2Proof.Machine

/-- A line of source text, or a token of one. -/
abbrev Text := List Char

/-- Why a text is not assembled (R296). -/
inductive ParseError where
  /-- The text before a `:` is no label (R282). -/
  | malformedLabel (text : Text)
  /-- A label defined twice (R294). -/
  | duplicateLabel (name : Text)
  /-- A label used but never defined (R294). -/
  | undefinedLabel (name : Text)
  /-- A mnemonic that is none of the 26 (R285). -/
  | unknownMnemonic (name : Text)
  /-- A token that is no register (R286). -/
  | badRegister (token : Text)
  /-- A token that is no numeric literal (R288). -/
  | badLiteral (token : Text)
  /-- The wrong number of operands (R287). -/
  | badOperands (line : Text)
  /-- A load or store operand that is not `offset(base)` (R292). -/
  | malformedAddress (text : Text)
  deriving DecidableEq, Repr

/-! ## Characters and tokens -/

/-- White space, which separates tokens. -/
def isSpace (c : Char) : Bool := c == ' ' || c == '\t' || c == '\r' || c == '\n'

/-- The delimiters of R284: "whitespace/comma/parenthesis". -/
def isDelimiter (c : Char) : Bool := isSpace c || c == ',' || c == '(' || c == ')'

/-- Leading white space removed. -/
def trimLeft (t : Text) : Text := t.dropWhile isSpace

/-- Surrounding white space removed. -/
def trimText (t : Text) : Text := (trimLeft (trimLeft t).reverse).reverse

/-- Line cleaning: everything from `#` on removed, then surrounding white space (R281). -/
def cleanLine (t : Text) : Text := trimText (t.takeWhile (· != '#'))

/-- The tokens of a text: the non-empty runs between delimiters. `acc` is the current run, reversed. -/
def tokensFrom (acc : Text) : Text → List Text
  | [] => if acc.isEmpty then [] else [acc.reverse]
  | c :: rest =>
    if isDelimiter c then (if acc.isEmpty then tokensFrom [] rest else acc.reverse :: tokensFrom [] rest)
    else tokensFrom (c :: acc) rest

/-- The tokens of a text (R284). -/
def tokens (t : Text) : List Text := tokensFrom [] t

/-! ## Numeric literals (R288) -/

/-- The value of a decimal digit. -/
def decimalDigit (c : Char) : Option Nat :=
  if '0'.toNat ≤ c.toNat ∧ c.toNat ≤ '9'.toNat then some (c.toNat - '0'.toNat) else none

/-- The value of a hexadecimal digit of either case. -/
def hexDigit (c : Char) : Option Nat :=
  if '0'.toNat ≤ c.toNat ∧ c.toNat ≤ '9'.toNat then some (c.toNat - '0'.toNat)
  else if 'a'.toNat ≤ c.toNat ∧ c.toNat ≤ 'f'.toNat then some (c.toNat - 'a'.toNat + 10)
  else if 'A'.toNat ≤ c.toNat ∧ c.toNat ≤ 'F'.toNat then some (c.toNat - 'A'.toNat + 10)
  else none

/-- A run of digits as a number, most significant first. -/
def digitsValue (base : Nat) (digit : Char → Option Nat) (acc : Nat) : Text → Option Nat
  | [] => some acc
  | c :: rest =>
    match digit c with
    | some d => digitsValue base digit (acc * base + d) rest
    | none => none

/-- A non-empty run of decimal digits. -/
def decimalValue (t : Text) : Option Nat := if t.isEmpty then none else digitsValue 10 decimalDigit 0 t

/-- A non-empty run of hexadecimal digits. -/
def hexValue (t : Text) : Option Nat := if t.isEmpty then none else digitsValue 16 hexDigit 0 t

/-- A numeric literal: "decimal, optionally with a leading `-`, or hexadecimal with the prefix `0x`" (R288). -/
def literal (t : Text) : Option Int :=
  match t with
  | '0' :: 'x' :: rest => (hexValue rest).map Int.ofNat
  | '-' :: rest => (decimalValue rest).map fun n => -(n : Int)
  | _ => (decimalValue t).map Int.ofNat

/-! ## Register operands (R286) -/

/-- The register names in the order of their indices.
UNVERIFIED (log 13): the spec supplies this table from general knowledge of MIPS. -/
def registerNames : List Text :=
  ["zero", "at", "v0", "v1", "a0", "a1", "a2", "a3", "t0", "t1", "t2", "t3", "t4", "t5", "t6", "t7",
   "s0", "s1", "s2", "s3", "s4", "s5", "s6", "s7", "t8", "t9", "k0", "k1", "gp", "sp", "fp", "ra"].map String.toList

/-- The register with an index below 32. -/
def registerOfNat (n : Nat) : Option RegIdx := if h : n < 32 then some ⟨n, h⟩ else none

/-- A register token without its optional `$`: "a decimal index 0 .. 31 or a register name" (R286). -/
def registerOfName (t : Text) : Option RegIdx :=
  match decimalValue t with
  | some n => registerOfNat n
  | none => registerOfNat (registerNames.idxOf t)

/-- A register operand: an optional leading `$`, then an index or a name (R286). -/
def parseRegister (t : Text) : Except ParseError RegIdx :=
  match (match t with
         | '$' :: rest => registerOfName rest
         | _ => registerOfName t) with
  | some r => .ok r
  | none => .error (.badRegister t)

/-! ## Immediate, shift, branch and jump operands -/

/-- A label with the byte address it is bound to. -/
abbrev LabelTable := List (Text × Nat)

/-- The address of a label. -/
def LabelTable.address : LabelTable → Text → Except ParseError Nat
  | [], name => .error (.undefinedLabel name)
  | (n, a) :: rest, name => if n = name then .ok a else LabelTable.address rest name

/-- A literal operand. -/
def parseLiteral (t : Text) : Except ParseError Int :=
  match literal t with
  | some v => .ok v
  | none => .error (.badLiteral t)

/-- The low 16 bits of an operand value, "truncated, not validated against signed range" (R289). -/
def immOfInt (v : Int) : Imm := BitVec.ofInt 16 v

/-- The low 5 bits of a shift amount operand (R293). -/
def shamtOfInt (v : Int) : Shamt := BitVec.ofInt 5 v

/-- The low 26 bits of a jump operand (R291). -/
def targetOfInt (v : Int) : Target := BitVec.ofInt 26 v

/-- The offset of a branch at `current` to a label at `address`: `(targetAddress - (currentAddress + 4)) / 4` (R290). -/
def branchOffset (address current : Nat) : Imm := immOfInt (((address : Int) - ((current : Int) + 4)) / 4)

/-- The target field of a jump to a label: `(address >> 2) & 0x3FFFFFF` (R291). -/
def jumpField (address : Nat) : Target := BitVec.ofNat 26 (address >>> 2)

/-- A 16-bit immediate operand (R289). -/
def parseImm (t : Text) : Except ParseError Imm := (parseLiteral t).map immOfInt

/-- A shift amount operand (R293). -/
def parseShamt (t : Text) : Except ParseError Shamt := (parseLiteral t).map shamtOfInt

/-- A branch operand: a literal count of instructions, or a label (R290); a token that reads as a literal is never a
label (R294). -/
def parseBranch (labels : LabelTable) (current : Nat) (t : Text) : Except ParseError Imm :=
  match literal t with
  | some v => .ok (immOfInt v)
  | none => (LabelTable.address labels t).map fun a => branchOffset a current

/-- A jump operand: a literal word index masked to 26 bits, or a label (R291). -/
def parseJump (labels : LabelTable) (t : Text) : Except ParseError Target :=
  match literal t with
  | some v => .ok (targetOfInt v)
  | none => (LabelTable.address labels t).map jumpField

/-! ## Instructions (R285, R287) -/

/-- The lowercase spelling of each mnemonic (R285). -/
def mnemonicNames : List (Text × Mnemonic) :=
  [("add", .r .add), ("sub", .r .sub), ("and", .r .and), ("or", .r .or), ("nor", .r .nor),
   ("sll", .r .sll), ("srl", .r .srl), ("slt", .r .slt), ("sltu", .r .sltu), ("jr", .r .jr),
   ("addi", .i .addi), ("andi", .i .andi), ("ori", .i .ori), ("slti", .i .slti), ("sltiu", .i .sltiu),
   ("lw", .i .lw), ("lh", .i .lh), ("lb", .i .lb), ("lhu", .i .lhu), ("sw", .i .sw),
   ("sh", .i .sh), ("sb", .i .sb), ("beq", .i .beq), ("bne", .i .bne), ("j", .j .j),
   ("jal", .j .jal)].map fun row => (row.1.toList, row.2)

/-- The mnemonic a token spells. -/
def mnemonicOfName (t : Text) : Option Mnemonic := (mnemonicNames.find? fun row => row.1 == t).map Prod.snd

/-- Two operands of an instruction, combined. -/
def pairParse {α β : Type} (a : Except ParseError α) (b : Except ParseError β) : Except ParseError (α × β) :=
  match a with
  | .error e => .error e
  | .ok x =>
    match b with
    | .error e => .error e
    | .ok y => .ok (x, y)

/-- `rd, rs, rt` (R287). -/
def parseR3 (line : Text) (k : RMnem) : List Text → Except ParseError Instr
  | [rd, rs, rt] =>
    (pairParse (parseRegister rd) (pairParse (parseRegister rs) (parseRegister rt))).map fun p =>
      rInstr k p.2.1 p.2.2 p.1 0
  | _ => .error (.badOperands line)

/-- `rd, rt, shamt` (R287). -/
def parseShift (line : Text) (k : RMnem) : List Text → Except ParseError Instr
  | [rd, rt, sa] =>
    (pairParse (parseRegister rd) (pairParse (parseRegister rt) (parseShamt sa))).map fun p =>
      rInstr k 0 p.2.1 p.1 p.2.2
  | _ => .error (.badOperands line)

/-- `rs` (R287). -/
def parseR1 (line : Text) (k : RMnem) : List Text → Except ParseError Instr
  | [rs] => (parseRegister rs).map fun r => rInstr k r 0 0 0
  | _ => .error (.badOperands line)

/-- `rt, rs, imm` (R287). -/
def parseI (line : Text) (k : IMnem) : List Text → Except ParseError Instr
  | [rt, rs, imm] =>
    (pairParse (parseRegister rt) (pairParse (parseRegister rs) (parseImm imm))).map fun p =>
      iInstr k p.2.1 p.1 p.2.2
  | _ => .error (.badOperands line)

/-- `rs, rt, offset-or-label` (R287). -/
def parseBr (labels : LabelTable) (current : Nat) (line : Text) (k : IMnem) : List Text → Except ParseError Instr
  | [rs, rt, off] =>
    (pairParse (parseRegister rs) (pairParse (parseRegister rt) (parseBranch labels current off))).map fun p =>
      iInstr k p.1 p.2.1 p.2.2
  | _ => .error (.badOperands line)

/-- `target-or-label` (R287). -/
def parseJ (labels : LabelTable) (line : Text) (k : JMnem) : List Text → Except ParseError Instr
  | [t] => (parseJump labels t).map fun v => jInstr k v
  | _ => .error (.badOperands line)

/-- The parts of a load or store operand text: what stands before the one `(`, inside the pair, and after it. -/
def splitParens (t : Text) : Option (Text × Text × Text) :=
  let before := t.takeWhile (· != '(')
  let afterOpen := t.drop (before.length + 1)
  let inside := afterOpen.takeWhile (· != ')')
  let rest := afterOpen.drop (inside.length + 1)
  if before.length < t.length ∧ inside.length < afterOpen.length ∧ !before.contains ')' ∧ !inside.contains '(' then
    some (before, inside, rest)
  else none

/-- `rt, imm(rs)`: the assembler "splits on the matching parenthesis pair and rejects malformed syntax" (R292). DESIGN
CHOICE (log 12): stray commas and blanks before the pair, between offset and pair, and inside the pair are accepted. -/
def parseMem (line : Text) (k : IMnem) (operands : Text) : Except ParseError Instr :=
  match splitParens operands with
  | none => .error (.malformedAddress line)
  | some (before, inside, rest) =>
    if (trimText rest).isEmpty then
      match tokens before, tokens inside with
      | [rt, off], [base] =>
        (pairParse (parseRegister rt) (pairParse (parseImm off) (parseRegister base))).map fun p =>
          iInstr k p.2.2 p.1 p.2.1
      | _, _ => .error (.malformedAddress line)
    else .error (.malformedAddress line)

/-- One instruction text, label prefix already removed, at a byte address (R284 to R293). DESIGN CHOICE (log 12): a comma
or parenthesis before the mnemonic makes it empty, so a `ParseError`; delimiters after the last operand of a line that
is no load or store are accepted. -/
def parseInstr (labels : LabelTable) (current : Nat) (line : Text) : Except ParseError Instr :=
  let name := line.takeWhile fun c => !isDelimiter c
  let operands := line.drop name.length
  match mnemonicOfName name with
  | none => .error (.unknownMnemonic name)
  | some (.r .sll) => parseShift line .sll (tokens operands)
  | some (.r .srl) => parseShift line .srl (tokens operands)
  | some (.r .jr) => parseR1 line .jr (tokens operands)
  | some (.r k) => parseR3 line k (tokens operands)
  | some (.i .lw) => parseMem line .lw operands
  | some (.i .lh) => parseMem line .lh operands
  | some (.i .lb) => parseMem line .lb operands
  | some (.i .lhu) => parseMem line .lhu operands
  | some (.i .sw) => parseMem line .sw operands
  | some (.i .sh) => parseMem line .sh operands
  | some (.i .sb) => parseMem line .sb operands
  | some (.i .beq) => parseBr labels current line .beq (tokens operands)
  | some (.i .bne) => parseBr labels current line .bne (tokens operands)
  | some (.i k) => parseI line k (tokens operands)
  | some (.j k) => parseJ labels line k (tokens operands)

/-! ## The two passes (R280 to R284) -/

/-- A cleaned line: the label it defines, if any, and its instruction text, if any. -/
structure SourceLine where
  label : Option Text
  code  : Option Text
  deriving DecidableEq, Repr

/-- A text as an instruction text, unless it is blank. -/
def codeOf (t : Text) : Option Text := if t.isEmpty then none else some t

/-- Whether a text may be a label: not empty, no delimiter in it, and no numeric literal (R282, R294). -/
def isLabel (t : Text) : Bool := !t.isEmpty && !t.any isDelimiter && (literal t).isNone

/-- A line split into label and instruction text (R281, R282). -/
def splitLine (t : Text) : Except ParseError SourceLine :=
  let line := cleanLine t
  if line.contains ':' then
    let name := line.takeWhile (· != ':')
    if isLabel name then .ok ⟨some name, codeOf (trimText (line.drop (name.length + 1)))⟩
    else .error (.malformedLabel name)
  else .ok ⟨none, codeOf line⟩

/-- All lines split, or the first error. -/
def splitLines : List Text → Except ParseError (List SourceLine)
  | [] => .ok []
  | t :: rest =>
    match splitLine t with
    | .error e => .error e
    | .ok l =>
      match splitLines rest with
      | .error e => .error e
      | .ok ls => .ok (l :: ls)

/-- The address after a line: 4 more if it holds an instruction (R283). -/
def nextAddress (current : Nat) (l : SourceLine) : Nat :=
  match l.code with
  | some _ => current + 4
  | none => current

/-- Pass 1: the label table (R282, R283); a label defined twice is an error (R294). -/
def labelsFrom (current : Nat) (table : LabelTable) : List SourceLine → Except ParseError LabelTable
  | [] => .ok table
  | l :: rest =>
    match l.label with
    | none => labelsFrom (nextAddress current l) table rest
    | some name =>
      if table.any (fun row => row.1 == name) then .error (.duplicateLabel name)
      else labelsFrom (nextAddress current l) ((name, current) :: table) rest

/-- Pass 2: the instructions of the lines that hold one (R284). -/
def instrsFrom (labels : LabelTable) (current : Nat) : List SourceLine → Except ParseError (List Instr)
  | [] => .ok []
  | l :: rest =>
    match l.code with
    | none => instrsFrom labels (nextAddress current l) rest
    | some code =>
      match parseInstr labels current code with
      | .error e => .error e
      | .ok i =>
        match instrsFrom labels (nextAddress current l) rest with
        | .error e => .error e
        | .ok is => .ok (i :: is)

/-- The instructions a text spells, in order. -/
def assembleInstrs (lines : List Text) : Except ParseError (List Instr) :=
  match splitLines lines with
  | .error e => .error e
  | .ok ls =>
    match labelsFrom 0 [] ls with
    | .error e => .error e
    | .ok labels => instrsFrom labels 0 ls

/-- The assembler under an opcode map: the word sequence of a text (R280, R295, R297). -/
def assembleWith (m : OpcodeMap) (lines : List Text) : Except ParseError (List Word) :=
  (assembleInstrs lines).map (List.map (encodeWith m))

/-- The assembler on strings, under the default opcode map. -/
def assembleText (lines : List String) : Except ParseError (List Word) :=
  assembleWith defaultOpcodeMap (lines.map String.toList)

end Sys2Proof.Machine
end

