-- ==== Sys2Proof/Machine/Engine.lean ====
section
/-! DEFINITION. The execution engine and the host interface around `step`: what a step reports, the state a fault leaves,
the program load, the host's commands, continuous execution, the snapshot and the elapsed time (10_state.md R29,
60_exceptions.md R324 to R326, R341 to R355, 70_reset_and_hazards.md R361). All host actions fall between steps
(R350). -/

namespace Sys2Proof.Machine

/-! ## Snapshot and elapsed time -/

/-- `(count_R * CPI_R + count_I * CPI_I + count_J * CPI_J) / CLOCK_HZ` seconds, from the current counters and the
current clock configuration (R341). -/
def State.elapsedTime (s : State) : Rat :=
  ((s.stats.countR * s.clock.cpiR + s.stats.countI * s.clock.cpiI + s.stats.countJ * s.clock.cpiJ : Nat) : Rat)
    / s.clock.clockHz

/-- What the host sees of the machine (R351), with the elapsed time, which is "observable only through the host's
snapshot" (R344), and less the disassembled text, whose format no source gives (00_scope.md R7). A snapshot is a value: a
time it reports stays as reported (R342). -/
structure Snapshot where
  pc      : Word
  regs    : List Word
  mem     : Memory
  current : Option Word
  stats   : Stats
  time    : Rat
  deriving DecidableEq, Repr

/-- The snapshot of a state; its current instruction is the word of the last completed step, none before the first
(log 11). -/
def State.snapshot (s : State) : Snapshot where
  pc := s.pc
  regs := (List.finRange 32).map s.reg
  mem := s.mem
  current := s.lastWord
  stats := s.stats
  time := s.elapsedTime

/-! ## What a step reports -/

/-- The report of one engine step (R150, R153). -/
inductive Report where
  /-- An instruction was executed to the end; the host receives the snapshot "after every completed step" (R351). -/
  | executed (snapshot : Snapshot)
  /-- pc was outside the program: the run has ended (R151, R355). -/
  | completed
  /-- The step raised a fault and committed nothing (R153). -/
  | faulted (f : Fault)
  /-- The instruction has no meaning in the model; this model never reports it. -/
  | refused (r : Refusal)
  deriving DecidableEq, Repr

/-- The fault code of a report (R324); a refusal is no event of the hardware and has none. -/
def Report.faultCode : Report → Option Nat
  | .executed _ => some 0
  | .completed => some 0
  | .faulted (.unsupportedInstruction _ _) => some 1
  | .faulted (.addressOutOfRange _ _ _) => some 2
  | .refused _ => none

/-- What the engine remembers of a completed instruction: its word, and that no fault is pending. -/
def State.recordExecuted (s : State) (w : Word) : State := { s with pendingFault := none, lastWord := some w }

/-- What the engine remembers of the end of a run: that no fault is pending. -/
def State.recordCompleted (s : State) : State := { s with pendingFault := none }

/-- What a fault leaves: the engine Idle and the fault pending, nothing else changed (R153, R326; log 8, log 10). -/
def State.recordFault (s : State) (f : Fault) : State := { s with mode := .idle, pendingFault := some f }

/-- One step of the engine: the next state and its report. -/
def engineStep (s : State) : State × Report :=
  match step s with
  | .next t =>
    if s.halted then (t.recordCompleted, .completed)
    else (t.recordExecuted (s.mem.readWord s.pc), .executed (t.recordExecuted (s.mem.readWord s.pc)).snapshot)
  | .fault f => (s.recordFault f, .faulted f)
  | .refused r => ({ s with mode := .idle }, .refused r)

/-- One turn of continuous execution: a pending pause is observed between cycles, otherwise a step is taken while the
engine is Running (R29, R354). `none`: no step was taken. -/
def runCycle (s : State) : State × Option Report :=
  match s.mode with
  | .idle => (s, none)
  | .running =>
    if s.pauseRequested then ({ s with mode := .idle, pauseRequested := false }, none)
    else ((engineStep s).1, some (engineStep s).2)

/-! ## Program load (70_reset_and_hazards.md R361) -/

/-- `MemWrite(a + 4k, 4, w_k)` for every word of a program. -/
def Memory.writeProgram (m : Memory) (a : Word) : List Word → Memory
  | [] => m
  | w :: rest => Memory.writeProgram (m.writeWord a w) (a + 4) rest

/-- `LOAD_BASE + 4N` as a 32-bit address (10_state.md R28; log 17). -/
def programEnd (base : Word) (n : Nat) : Word := base + BitVec.ofNat 32 (4 * n)

/-- The state a program load installs: everything but the clock configuration is new (R361, R362). -/
def State.loaded (s : State) (program : List Word) : State where
  regs := Vector.replicate 32 0
  pc := s.params.loadBase
  mem := Memory.writeProgram [] s.params.loadBase program
  codeEnd := programEnd s.params.loadBase program.length
  mode := .idle
  pauseRequested := false
  pendingFault := none
  lastWord := none
  stats := { countR := 0, countI := 0, countJ := 0, cycles := 0 }
  clock := s.clock
  params := s.params

/-! ## Host commands (60_exceptions.md R350) -/

/-- What the host may do between steps. -/
inductive HostCommand where
  /-- Load an assembled program (R361). -/
  | load (program : List Word)
  /-- Assemble a text and load it (45_assembler.md R296, R297). -/
  | loadText (lines : List Text)
  /-- Preset a register (R350). -/
  | preset (r : RegIdx) (v : Word)
  /-- Start continuous execution (10_state.md R29). -/
  | start
  /-- Request a pause (R354). -/
  | pause
  /-- Execute exactly one step from Idle (R353). -/
  | singleStep
  /-- Reconfigure the clock (R342). -/
  | reconfigure (c : ClockConfig)
  /-- After a fault, go on past the faulting word (R350). -/
  | skip
  /-- After a fault, stop (R350). -/
  | stop
  /-- Read the snapshot (R350, R351). -/
  | readSnapshot
  deriving DecidableEq, Repr

/-- Why a host command is turned away, the state unchanged. -/
inductive HostRefusal where
  /-- The program does not fit a `Fixed` memory (R361). -/
  | programTooLarge
  /-- The text is malformed (45_assembler.md R296). -/
  | parseError (e : ParseError)
  /-- Single step is "valid only from Idle" (10_state.md R29). Start while Running is turned away too: DESIGN CHOICE
  (log 22), R29 gives Start from Idle alone and names no refusal. -/
  | notIdle
  /-- Pause while Idle. DESIGN CHOICE (log 22): R29 gives Pause from Running alone and does not say what it does while
  Idle. -/
  | notRunning
  /-- `CLOCK_HZ` must be positive (R341). -/
  | clockNotPositive
  /-- Skip and stop follow a fault (R350; log 10). -/
  | notFaulted
  deriving DecidableEq, Repr

/-- The answer to a host command: the new state with the report of a step it took, if any; or the snapshot asked for, the
state unchanged; or the reason it was turned away, the state unchanged. -/
inductive HostAnswer where
  | done (s : State) (report : Option Report)
  | snapshot (v : Snapshot)
  | refused (why : HostRefusal)
  deriving DecidableEq, Repr

/-- The state after the host has answered a pending fault. -/
def State.answered (s : State) : State := { s with pendingFault := none }

/-- Skip: `pc <- pc + 4`, "and leaves everything else unchanged" (R350); the fault is answered. -/
def State.skipped (s : State) : State := { s with pc := pcPlus4 s.pc, pendingFault := none }

/-- The load of a program, refused whole when it does not fit (R361). -/
def hostLoad (s : State) (program : List Word) : HostAnswer :=
  if s.params.fits program.length then .done (s.loaded program) none else .refused .programTooLarge

/-- The host's commands (R350). Single step is accepted from Idle (R29). DESIGN CHOICE: Start is turned away while Running
and Pause while Idle (log 22); load, preset and reconfigure are accepted in both modes (log 19); skip and stop are
accepted exactly while a fault is pending, and stop changes nothing of the machine (log 10). -/
def hostCommand (s : State) : HostCommand → HostAnswer
  | .load program => hostLoad s program
  | .loadText lines =>
    match assembleWith s.params.opcodeMap lines with
    | .error e => .refused (.parseError e)
    | .ok program => hostLoad s program
  | .preset r v => .done (s.setReg r v) none
  | .start =>
    match s.mode with
    | .idle => .done { s with mode := .running, pauseRequested := false } none
    | .running => .refused .notIdle
  | .pause =>
    match s.mode with
    | .idle => .refused .notRunning
    | .running => .done { s with pauseRequested := true } none
  | .singleStep =>
    match s.mode with
    | .idle => .done (engineStep s).1 (some (engineStep s).2)
    | .running => .refused .notIdle
  | .reconfigure c => if c.wellFormed then .done { s with clock := c } none else .refused .clockNotPositive
  | .skip =>
    match s.pendingFault with
    | some _ => .done s.skipped none
    | none => .refused .notFaulted
  | .stop =>
    match s.pendingFault with
    | some _ => .done s.answered none
    | none => .refused .notFaulted
  | .readSnapshot => .snapshot s.snapshot

end Sys2Proof.Machine
end

