-- ==== Sys2Proof/Laws/Memory.lean ====
section
/-! SUPPORT. The laws of byte memory: a read after a write, the canonical form kept by every operation, equal reads make
equal memories, and the bytes of the wider accesses. -/

namespace Sys2Proof.Machine

/-! ## One byte -/

/-- A memory whose addresses all lie above `x` reads as unlisted at `x`. -/
theorem Memory.get_of_forall_lt {m : Memory} {x : Nat} (h : ∀ c ∈ m, x < c.1) : m.get x = Memory.unlisted := by
  induction m with
  | nil => rfl
  | cons c rest ih =>
    have hc := h c (by simp)
    have : x ≠ c.1 := by omega
    simp only [Memory.get, this, if_false]
    exact ih fun d hd => h d (by simp [hd])

/-- The tail of a canonical memory is canonical. -/
theorem Memory.wf_tail {c : Host.Cell} {m : Memory} (h : Memory.wf (c :: m)) : Memory.wf m :=
  ⟨h.1.tail, fun d hd => h.2 d (by simp [hd])⟩

/-- In a canonical memory every address of the tail lies above the head's. -/
theorem Memory.head_lt {c : Host.Cell} {m : Memory} (h : Memory.wf (c :: m)) : ∀ d ∈ m, c.1 < d.1 :=
  (List.pairwise_cons.mp h.1).1

/-- Reading after writing one byte of a canonical memory. -/
theorem Memory.get_set {m : Memory} (hm : m.wf) (x : Nat) (v : Byte) (y : Nat) :
    (m.set x v).get y = if y = x then v else m.get y := by
  induction m with
  | nil =>
    by_cases hv : v = Memory.unlisted <;> by_cases hy : y = x <;> simp [Memory.set, Memory.get, hv, hy]
  | cons c rest ih =>
    obtain ⟨a, b⟩ := c
    have hrest := Memory.wf_tail hm
    have hlt := Memory.head_lt hm
    have ih := ih hrest
    by_cases hxa : x < a
    · have habove : ∀ d ∈ rest, x < d.1 := fun d hd => lt_trans hxa (hlt d hd)
      have hget := Memory.get_of_forall_lt habove
      by_cases hv : v = Memory.unlisted <;> by_cases hy : y = x <;>
        simp [Memory.set, Memory.get, hxa, hv, hy, hget, hxa.ne]
    · by_cases hx : x = a
      · subst hx
        have hget := Memory.get_of_forall_lt hlt
        by_cases hv : v = Memory.unlisted <;> by_cases hy : y = x <;>
          simp [Memory.set, Memory.get, hv, hy, hget]
      · by_cases hya : y = a
        · simp [Memory.set, Memory.get, hxa, hx, hya, Ne.symm hx]
        · simp [Memory.set, Memory.get, hxa, hx, hya, ih]

/-- Every entry of a changed memory is an old one or the written one, which is not unlisted. -/
theorem Memory.mem_set {m : Memory} {x : Nat} {v : Byte} {c : Host.Cell} (h : c ∈ m.set x v) :
    c ∈ m ∨ (c = (x, v) ∧ v ≠ Memory.unlisted) := by
  induction m with
  | nil =>
    by_cases hv : v = Memory.unlisted <;> simp [Memory.set, hv] at h ⊢
    exact h
  | cons d rest ih =>
    obtain ⟨a, b⟩ := d
    simp only [Memory.set] at h
    split_ifs at h with h1 h2 h3 h4
    · exact .inl h
    · rcases List.mem_cons.mp h with rfl | h
      · exact .inr ⟨rfl, h2⟩
      · exact .inl h
    · exact .inl (by simp [h])
    · rcases List.mem_cons.mp h with rfl | h
      · exact .inr ⟨rfl, h4⟩
      · exact .inl (by simp [h])
    · rcases List.mem_cons.mp h with rfl | h
      · exact .inl (by simp)
      · rcases ih h with h | h
        · exact .inl (by simp [h])
        · exact .inr h

/-- Writing a byte keeps the canonical form. -/
theorem Memory.wf_set {m : Memory} (hm : m.wf) (x : Nat) (v : Byte) : (m.set x v).wf := by
  refine ⟨?_, fun c hc => ?_⟩
  · induction m with
    | nil => by_cases hv : v = Memory.unlisted <;> simp [Memory.set, hv]
    | cons d rest ih =>
      obtain ⟨a, b⟩ := d
      have hlt := Memory.head_lt hm
      have hrest := Memory.wf_tail hm
      simp only [Memory.set]
      split_ifs with h1 h2 h3 h4
      · exact hm.1
      · refine List.pairwise_cons.mpr ⟨fun c hc => ?_, hm.1⟩
        rcases List.mem_cons.mp hc with rfl | hc
        · exact h1
        · exact lt_trans h1 (hlt c hc)
      · exact hrest.1
      · exact List.pairwise_cons.mpr ⟨fun c hc => h3 ▸ hlt c hc, hrest.1⟩
      · refine List.pairwise_cons.mpr ⟨fun c hc => ?_, ih hrest⟩
        rcases Memory.mem_set hc with hc | ⟨rfl, -⟩
        · exact hlt c hc
        · show a < x
          omega
  · rcases Memory.mem_set hc with hc | ⟨rfl, hv⟩
    · exact hm.2 c hc
    · exact hv

/-- Writing a byte below a bound keeps every address below it. -/
theorem Memory.below_set {m : Memory} {bound x : Nat} (hm : m.below bound) (v : Byte) (hx : x < bound) :
    (m.set x v).below bound := by
  intro c hc
  rcases Memory.mem_set hc with hc | ⟨rfl, -⟩
  · exact hm c hc
  · exact hx

/-- Two canonical memories that read alike are equal. -/
theorem Memory.ext_of_get : ∀ {m n : Memory}, m.wf → n.wf → (∀ x, m.get x = n.get x) → m = n
  | [], [], _, _, _ => rfl
  | [], (a, b) :: _, _, hn, h => by
    have := h a
    simp [Memory.get] at this
    exact absurd this.symm (hn.2 (a, b) (by simp))
  | (a, b) :: _, [], hm, _, h => by
    have := h a
    simp [Memory.get] at this
    exact absurd this (hm.2 (a, b) (by simp))
  | (a, b) :: m, (a', b') :: n, hm, hn, h => by
    have hma := Memory.head_lt hm
    have hna := Memory.head_lt hn
    have hb : b ≠ Memory.unlisted := hm.2 (a, b) (by simp)
    have hb' : b' ≠ Memory.unlisted := hn.2 (a', b') (by simp)
    have haa : a = a' := by
      rcases lt_trichotomy a a' with hlt | heq | hgt
      · have h1 := h a
        have h2 : Memory.get n a = Memory.unlisted := Memory.get_of_forall_lt fun d hd => lt_trans hlt (hna d hd)
        simp [Memory.get, hlt.ne, h2] at h1
        exact absurd h1 hb
      · exact heq
      · have h1 := h a'
        have h2 : Memory.get m a' = Memory.unlisted := Memory.get_of_forall_lt fun d hd => lt_trans hgt (hma d hd)
        simp [Memory.get, hgt.ne, h2] at h1
        exact absurd h1.symm hb'
    subst haa
    have hbb : b = b' := by simpa [Memory.get] using h a
    subst hbb
    have : m = n := Memory.ext_of_get (Memory.wf_tail hm) (Memory.wf_tail hn) fun x => by
      by_cases hx : x = a
      · subst hx
        rw [Memory.get_of_forall_lt hma, Memory.get_of_forall_lt hna]
      · simpa [Memory.get, hx] using h x
    rw [this]

/-! ## Accesses at word addresses -/

/-- Reading a byte after writing one. -/
theorem Memory.readByte_writeByte {m : Memory} (hm : m.wf) (a : Word) (v : Byte) (b : Word) :
    (m.writeByte a v).readByte b = if b = a then v else m.readByte b := by
  simp only [Memory.writeByte, Memory.readByte, Memory.get_set hm]
  by_cases h : b = a
  · simp [h]
  · have : b.toNat ≠ a.toNat := fun e => h (BitVec.eq_of_toNat_eq e)
    simp [h, this]

theorem Memory.wf_writeByte {m : Memory} (hm : m.wf) (a : Word) (v : Byte) : (m.writeByte a v).wf :=
  Memory.wf_set hm _ _

theorem Memory.wf_writeHalf {m : Memory} (hm : m.wf) (a : Word) (v : Half) : (m.writeHalf a v).wf :=
  Memory.wf_writeByte (Memory.wf_writeByte hm _ _) _ _

theorem Memory.wf_writeWord {m : Memory} (hm : m.wf) (a : Word) (v : Word) : (m.writeWord a v).wf :=
  Memory.wf_writeByte (Memory.wf_writeByte (Memory.wf_writeByte (Memory.wf_writeByte hm _ _) _ _) _ _) _ _

/-- A program load keeps the canonical form. -/
theorem Memory.wf_writeProgram : ∀ (ws : List Word) {m : Memory} (a : Word), m.wf → (m.writeProgram a ws).wf
  | [], _, _, h => h
  | _ :: ws, _, _, h => Memory.wf_writeProgram ws _ (Memory.wf_writeWord h _ _)

/-- The memory after reset is canonical: nothing is listed. -/
theorem reset_mem_wf : State.reset.mem.wf := by decide

/-- Reading a byte after writing a halfword. -/
theorem Memory.readByte_writeHalf {m : Memory} (hm : m.wf) (a : Word) (v : Half) (b : Word) :
    (m.writeHalf a v).readByte b =
      if b = a + 1 then v.extractLsb' 8 8 else if b = a then v.extractLsb' 0 8 else m.readByte b := by
  unfold Memory.writeHalf
  rw [Memory.readByte_writeByte (Memory.wf_writeByte hm _ _), Memory.readByte_writeByte hm]

/-- Reading a byte after writing a word. -/
theorem Memory.readByte_writeWord {m : Memory} (hm : m.wf) (a : Word) (v : Word) (b : Word) :
    (m.writeWord a v).readByte b =
      if b = a + 3 then v.extractLsb' 24 8 else if b = a + 2 then v.extractLsb' 16 8
      else if b = a + 1 then v.extractLsb' 8 8 else if b = a then v.extractLsb' 0 8 else m.readByte b := by
  have h0 := Memory.wf_writeByte hm a (v.extractLsb' 0 8)
  have h1 := Memory.wf_writeByte h0 (a + 1) (v.extractLsb' 8 8)
  have h2 := Memory.wf_writeByte h1 (a + 2) (v.extractLsb' 16 8)
  unfold Memory.writeWord
  rw [Memory.readByte_writeByte h2, Memory.readByte_writeByte h1, Memory.readByte_writeByte h0,
    Memory.readByte_writeByte hm]

/-- Byte addresses one to three apart differ (the 32-bit address space is larger than that). -/
theorem addr_ne (a : Word) : a ≠ a + 1 ∧ a ≠ a + 2 ∧ a ≠ a + 3 ∧ a + 1 ≠ a + 2 ∧ a + 1 ≠ a + 3 ∧ a + 2 ≠ a + 3 := by
  refine ⟨?_, ?_, ?_, ?_, ?_, ?_⟩ <;> bv_omega

/-- The word composed of the four bytes of a word is that word (20_memory.md R56). -/
theorem wordOfBytes_bytesOfWord (w : Word) :
    wordOfBytes (w.extractLsb' 0 8) (w.extractLsb' 8 8) (w.extractLsb' 16 8) (w.extractLsb' 24 8) = w := by
  unfold wordOfBytes
  rw [BitVec.extractLsb'_append_extractLsb'_eq_extractLsb' (by decide),
    BitVec.extractLsb'_append_extractLsb'_eq_extractLsb' (by decide),
    BitVec.extractLsb'_append_extractLsb'_eq_extractLsb' (by decide)]
  exact BitVec.extractLsb'_eq_self

/-- Storing a word and reading it back gives it (20_memory.md R56). -/
theorem Memory.readWord_writeWord {m : Memory} (hm : m.wf) (a : Word) (v : Word) : (m.writeWord a v).readWord a = v := by
  obtain ⟨h1, h2, h3, h4, h5, h6⟩ := addr_ne a
  unfold Memory.readWord
  simp only [Memory.readByte_writeWord hm, h1, h2, h3, h4, h5, h6, if_true, if_false]
  exact wordOfBytes_bytesOfWord v

/-! ## Bounds -/

/-- A byte below the bound may be written. -/
theorem Memory.below_writeByte {m : Memory} {bound : Nat} (hm : m.below bound) (a : Word) (v : Byte)
    (ha : a.toNat < bound) : (m.writeByte a v).below bound := Memory.below_set hm v ha

theorem Memory.below_writeHalf {m : Memory} {bound : Nat} (hm : m.below bound) (a : Word) (v : Half)
    (h0 : a.toNat < bound) (h1 : (a + 1).toNat < bound) : (m.writeHalf a v).below bound :=
  Memory.below_writeByte (Memory.below_writeByte hm _ _ h0) _ _ h1

theorem Memory.below_writeWord {m : Memory} {bound : Nat} (hm : m.below bound) (a : Word) (v : Word)
    (h0 : a.toNat < bound) (h1 : (a + 1).toNat < bound) (h2 : (a + 2).toNat < bound) (h3 : (a + 3).toNat < bound) :
    (m.writeWord a v).below bound :=
  Memory.below_writeByte (Memory.below_writeByte (Memory.below_writeByte (Memory.below_writeByte hm _ _ h0) _ _ h1)
    _ _ h2) _ _ h3

end Sys2Proof.Machine
end

