-- ==== Sys2Proof/Laws/State.lean ====
section
/-! SUPPORT. One lemma per field of State per update of it, so that no later proof unfolds a record update. -/

namespace Sys2Proof.Machine

/-! ## `retire` -/

@[simp] theorem State.retire_regs (s : State) (k : Format) (p : Word) : (s.retire k p).regs = s.regs := rfl
@[simp] theorem State.retire_pc (s : State) (k : Format) (p : Word) : (s.retire k p).pc = p := rfl
@[simp] theorem State.retire_mem (s : State) (k : Format) (p : Word) : (s.retire k p).mem = s.mem := rfl
@[simp] theorem State.retire_codeEnd (s : State) (k : Format) (p : Word) : (s.retire k p).codeEnd = s.codeEnd := rfl
@[simp] theorem State.retire_mode (s : State) (k : Format) (p : Word) : (s.retire k p).mode = s.mode := rfl
@[simp] theorem State.retire_pauseRequested (s : State) (k : Format) (p : Word) : (s.retire k p).pauseRequested = s.pauseRequested := rfl
@[simp] theorem State.retire_pendingFault (s : State) (k : Format) (p : Word) : (s.retire k p).pendingFault = s.pendingFault := rfl
@[simp] theorem State.retire_lastWord (s : State) (k : Format) (p : Word) : (s.retire k p).lastWord = s.lastWord := rfl
@[simp] theorem State.retire_stats (s : State) (k : Format) (p : Word) : (s.retire k p).stats = s.stats.count k s.clock := rfl
@[simp] theorem State.retire_clock (s : State) (k : Format) (p : Word) : (s.retire k p).clock = s.clock := rfl
@[simp] theorem State.retire_params (s : State) (k : Format) (p : Word) : (s.retire k p).params = s.params := rfl

/-! ## `complete` -/

@[simp] theorem State.complete_regs (s : State) : (s.complete).regs = s.regs := rfl
@[simp] theorem State.complete_pc (s : State) : (s.complete).pc = s.pc := rfl
@[simp] theorem State.complete_mem (s : State) : (s.complete).mem = s.mem := rfl
@[simp] theorem State.complete_codeEnd (s : State) : (s.complete).codeEnd = s.codeEnd := rfl
@[simp] theorem State.complete_mode (s : State) : (s.complete).mode = .idle := rfl
@[simp] theorem State.complete_pauseRequested (s : State) : (s.complete).pauseRequested = s.pauseRequested := rfl
@[simp] theorem State.complete_pendingFault (s : State) : (s.complete).pendingFault = s.pendingFault := rfl
@[simp] theorem State.complete_lastWord (s : State) : (s.complete).lastWord = s.lastWord := rfl
@[simp] theorem State.complete_stats (s : State) : (s.complete).stats = s.stats := rfl
@[simp] theorem State.complete_clock (s : State) : (s.complete).clock = s.clock := rfl
@[simp] theorem State.complete_params (s : State) : (s.complete).params = s.params := rfl

/-! ## `setReg`: every field but the registers -/

@[simp] theorem State.setReg_pc (s : State) (i : RegIdx) (v : Word) : (s.setReg i v).pc = s.pc := by unfold State.setReg; split <;> rfl
@[simp] theorem State.setReg_mem (s : State) (i : RegIdx) (v : Word) : (s.setReg i v).mem = s.mem := by unfold State.setReg; split <;> rfl
@[simp] theorem State.setReg_codeEnd (s : State) (i : RegIdx) (v : Word) : (s.setReg i v).codeEnd = s.codeEnd := by unfold State.setReg; split <;> rfl
@[simp] theorem State.setReg_mode (s : State) (i : RegIdx) (v : Word) : (s.setReg i v).mode = s.mode := by unfold State.setReg; split <;> rfl
@[simp] theorem State.setReg_pauseRequested (s : State) (i : RegIdx) (v : Word) : (s.setReg i v).pauseRequested = s.pauseRequested := by unfold State.setReg; split <;> rfl
@[simp] theorem State.setReg_pendingFault (s : State) (i : RegIdx) (v : Word) : (s.setReg i v).pendingFault = s.pendingFault := by unfold State.setReg; split <;> rfl
@[simp] theorem State.setReg_lastWord (s : State) (i : RegIdx) (v : Word) : (s.setReg i v).lastWord = s.lastWord := by unfold State.setReg; split <;> rfl
@[simp] theorem State.setReg_stats (s : State) (i : RegIdx) (v : Word) : (s.setReg i v).stats = s.stats := by unfold State.setReg; split <;> rfl
@[simp] theorem State.setReg_clock (s : State) (i : RegIdx) (v : Word) : (s.setReg i v).clock = s.clock := by unfold State.setReg; split <;> rfl
@[simp] theorem State.setReg_params (s : State) (i : RegIdx) (v : Word) : (s.setReg i v).params = s.params := by unfold State.setReg; split <;> rfl


/-! ## `placeWord` -/

@[simp] theorem State.placeWord_regs (s : State) (w : Word) : (s.placeWord w).regs = s.regs := rfl
@[simp] theorem State.placeWord_pc (s : State) (w : Word) : (s.placeWord w).pc = s.pc := rfl
@[simp] theorem State.placeWord_mem (s : State) (w : Word) : (s.placeWord w).mem = if s.inRange s.pc .word then s.mem.writeWord s.pc w else s.mem := rfl
@[simp] theorem State.placeWord_codeEnd (s : State) (w : Word) : (s.placeWord w).codeEnd = if s.halted then pcPlus4 s.pc else s.codeEnd := rfl
@[simp] theorem State.placeWord_mode (s : State) (w : Word) : (s.placeWord w).mode = s.mode := rfl
@[simp] theorem State.placeWord_pauseRequested (s : State) (w : Word) : (s.placeWord w).pauseRequested = s.pauseRequested := rfl
@[simp] theorem State.placeWord_pendingFault (s : State) (w : Word) : (s.placeWord w).pendingFault = s.pendingFault := rfl
@[simp] theorem State.placeWord_lastWord (s : State) (w : Word) : (s.placeWord w).lastWord = s.lastWord := rfl
@[simp] theorem State.placeWord_stats (s : State) (w : Word) : (s.placeWord w).stats = s.stats := rfl
@[simp] theorem State.placeWord_clock (s : State) (w : Word) : (s.placeWord w).clock = s.clock := rfl
@[simp] theorem State.placeWord_params (s : State) (w : Word) : (s.placeWord w).params = s.params := rfl

/-! ## `loaded` -/

@[simp] theorem State.loaded_regs (s : State) (ws : List Word) : (s.loaded ws).regs = Vector.replicate 32 0 := rfl
@[simp] theorem State.loaded_pc (s : State) (ws : List Word) : (s.loaded ws).pc = s.params.loadBase := rfl
@[simp] theorem State.loaded_mem (s : State) (ws : List Word) : (s.loaded ws).mem = Memory.writeProgram [] s.params.loadBase ws := rfl
@[simp] theorem State.loaded_codeEnd (s : State) (ws : List Word) : (s.loaded ws).codeEnd = programEnd s.params.loadBase ws.length := rfl
@[simp] theorem State.loaded_mode (s : State) (ws : List Word) : (s.loaded ws).mode = .idle := rfl
@[simp] theorem State.loaded_pauseRequested (s : State) (ws : List Word) : (s.loaded ws).pauseRequested = false := rfl
@[simp] theorem State.loaded_pendingFault (s : State) (ws : List Word) : (s.loaded ws).pendingFault = none := rfl
@[simp] theorem State.loaded_lastWord (s : State) (ws : List Word) : (s.loaded ws).lastWord = none := rfl
@[simp] theorem State.loaded_stats (s : State) (ws : List Word) : (s.loaded ws).stats = 
      { countR := 0, countI := 0, countJ := 0, cycles := 0 } := rfl
@[simp] theorem State.loaded_clock (s : State) (ws : List Word) : (s.loaded ws).clock = s.clock := rfl
@[simp] theorem State.loaded_params (s : State) (ws : List Word) : (s.loaded ws).params = s.params := rfl

/-! ## `recordExecuted` -/

@[simp] theorem State.recordExecuted_regs (s : State) (w : Word) : (s.recordExecuted w).regs = s.regs := rfl
@[simp] theorem State.recordExecuted_pc (s : State) (w : Word) : (s.recordExecuted w).pc = s.pc := rfl
@[simp] theorem State.recordExecuted_mem (s : State) (w : Word) : (s.recordExecuted w).mem = s.mem := rfl
@[simp] theorem State.recordExecuted_codeEnd (s : State) (w : Word) : (s.recordExecuted w).codeEnd = s.codeEnd := rfl
@[simp] theorem State.recordExecuted_mode (s : State) (w : Word) : (s.recordExecuted w).mode = s.mode := rfl
@[simp] theorem State.recordExecuted_pauseRequested (s : State) (w : Word) : (s.recordExecuted w).pauseRequested = s.pauseRequested := rfl
@[simp] theorem State.recordExecuted_pendingFault (s : State) (w : Word) : (s.recordExecuted w).pendingFault = none := rfl
@[simp] theorem State.recordExecuted_lastWord (s : State) (w : Word) : (s.recordExecuted w).lastWord = some w := rfl
@[simp] theorem State.recordExecuted_stats (s : State) (w : Word) : (s.recordExecuted w).stats = s.stats := rfl
@[simp] theorem State.recordExecuted_clock (s : State) (w : Word) : (s.recordExecuted w).clock = s.clock := rfl
@[simp] theorem State.recordExecuted_params (s : State) (w : Word) : (s.recordExecuted w).params = s.params := rfl

/-! ## `recordCompleted` -/

@[simp] theorem State.recordCompleted_regs (s : State) : (s.recordCompleted).regs = s.regs := rfl
@[simp] theorem State.recordCompleted_pc (s : State) : (s.recordCompleted).pc = s.pc := rfl
@[simp] theorem State.recordCompleted_mem (s : State) : (s.recordCompleted).mem = s.mem := rfl
@[simp] theorem State.recordCompleted_codeEnd (s : State) : (s.recordCompleted).codeEnd = s.codeEnd := rfl
@[simp] theorem State.recordCompleted_mode (s : State) : (s.recordCompleted).mode = s.mode := rfl
@[simp] theorem State.recordCompleted_pauseRequested (s : State) : (s.recordCompleted).pauseRequested = s.pauseRequested := rfl
@[simp] theorem State.recordCompleted_pendingFault (s : State) : (s.recordCompleted).pendingFault = none := rfl
@[simp] theorem State.recordCompleted_lastWord (s : State) : (s.recordCompleted).lastWord = s.lastWord := rfl
@[simp] theorem State.recordCompleted_stats (s : State) : (s.recordCompleted).stats = s.stats := rfl
@[simp] theorem State.recordCompleted_clock (s : State) : (s.recordCompleted).clock = s.clock := rfl
@[simp] theorem State.recordCompleted_params (s : State) : (s.recordCompleted).params = s.params := rfl

/-! ## `recordFault` -/

@[simp] theorem State.recordFault_regs (s : State) (f : Fault) : (s.recordFault f).regs = s.regs := rfl
@[simp] theorem State.recordFault_pc (s : State) (f : Fault) : (s.recordFault f).pc = s.pc := rfl
@[simp] theorem State.recordFault_mem (s : State) (f : Fault) : (s.recordFault f).mem = s.mem := rfl
@[simp] theorem State.recordFault_codeEnd (s : State) (f : Fault) : (s.recordFault f).codeEnd = s.codeEnd := rfl
@[simp] theorem State.recordFault_mode (s : State) (f : Fault) : (s.recordFault f).mode = .idle := rfl
@[simp] theorem State.recordFault_pauseRequested (s : State) (f : Fault) : (s.recordFault f).pauseRequested = s.pauseRequested := rfl
@[simp] theorem State.recordFault_pendingFault (s : State) (f : Fault) : (s.recordFault f).pendingFault = some f := rfl
@[simp] theorem State.recordFault_lastWord (s : State) (f : Fault) : (s.recordFault f).lastWord = s.lastWord := rfl
@[simp] theorem State.recordFault_stats (s : State) (f : Fault) : (s.recordFault f).stats = s.stats := rfl
@[simp] theorem State.recordFault_clock (s : State) (f : Fault) : (s.recordFault f).clock = s.clock := rfl
@[simp] theorem State.recordFault_params (s : State) (f : Fault) : (s.recordFault f).params = s.params := rfl

/-! ## `answered` -/

@[simp] theorem State.answered_regs (s : State) : (s.answered).regs = s.regs := rfl
@[simp] theorem State.answered_pc (s : State) : (s.answered).pc = s.pc := rfl
@[simp] theorem State.answered_mem (s : State) : (s.answered).mem = s.mem := rfl
@[simp] theorem State.answered_codeEnd (s : State) : (s.answered).codeEnd = s.codeEnd := rfl
@[simp] theorem State.answered_mode (s : State) : (s.answered).mode = s.mode := rfl
@[simp] theorem State.answered_pauseRequested (s : State) : (s.answered).pauseRequested = s.pauseRequested := rfl
@[simp] theorem State.answered_pendingFault (s : State) : (s.answered).pendingFault = none := rfl
@[simp] theorem State.answered_lastWord (s : State) : (s.answered).lastWord = s.lastWord := rfl
@[simp] theorem State.answered_stats (s : State) : (s.answered).stats = s.stats := rfl
@[simp] theorem State.answered_clock (s : State) : (s.answered).clock = s.clock := rfl
@[simp] theorem State.answered_params (s : State) : (s.answered).params = s.params := rfl

/-! ## `skipped` -/

@[simp] theorem State.skipped_regs (s : State) : (s.skipped).regs = s.regs := rfl
@[simp] theorem State.skipped_pc (s : State) : (s.skipped).pc = pcPlus4 s.pc := rfl
@[simp] theorem State.skipped_mem (s : State) : (s.skipped).mem = s.mem := rfl
@[simp] theorem State.skipped_codeEnd (s : State) : (s.skipped).codeEnd = s.codeEnd := rfl
@[simp] theorem State.skipped_mode (s : State) : (s.skipped).mode = s.mode := rfl
@[simp] theorem State.skipped_pauseRequested (s : State) : (s.skipped).pauseRequested = s.pauseRequested := rfl
@[simp] theorem State.skipped_pendingFault (s : State) : (s.skipped).pendingFault = none := rfl
@[simp] theorem State.skipped_lastWord (s : State) : (s.skipped).lastWord = s.lastWord := rfl
@[simp] theorem State.skipped_stats (s : State) : (s.skipped).stats = s.stats := rfl
@[simp] theorem State.skipped_clock (s : State) : (s.skipped).clock = s.clock := rfl
@[simp] theorem State.skipped_params (s : State) : (s.skipped).params = s.params := rfl

/-! ## Register reads after an update -/

@[simp] theorem State.reg_zero (s : State) : s.reg 0 = 0 := rfl

@[simp] theorem State.reg_retire (s : State) (k : Format) (p : Word) (r : RegIdx) :
    (s.retire k p).reg r = s.reg r := rfl

@[simp] theorem State.reg_withMem (s : State) (m : Memory) (r : RegIdx) :
    ({ s with mem := m } : State).reg r = s.reg r := rfl

@[simp] theorem State.setReg_zero (s : State) (v : Word) : s.setReg 0 v = s := rfl

/-- Reading the register just written: the value, or 0 for register 0 (10_state.md R22). -/
theorem State.reg_setReg_self (s : State) (i : RegIdx) (v : Word) :
    (s.setReg i v).reg i = if i = 0 then 0 else v := by
  by_cases h : i = 0 <;> simp [State.reg, State.setReg, h]

/-- Reading another register than the one written. -/
theorem State.reg_setReg_of_ne (s : State) {i r : RegIdx} (v : Word) (h : r ≠ i) :
    (s.setReg i v).reg r = s.reg r := by
  have hv : i.val ≠ r.val := fun e => h (Fin.ext e.symm)
  by_cases h0 : i = 0
  · simp [h0]
  · by_cases hr : r = 0 <;> simp [State.reg, State.setReg, h0, hr, hv]

/-- A register write and an update of memory commute. -/
theorem State.setReg_withMem (s : State) (m : Memory) (i : RegIdx) (v : Word) :
    ({ s with mem := m } : State).setReg i v = { s.setReg i v with mem := m } := by
  unfold State.setReg; split <;> rfl

/-- The stored cell of register 0 is never changed by a register write (10_state.md R22). -/
theorem State.setReg_regs_zero (s : State) (i : RegIdx) (v : Word) : (s.setReg i v).regs[0] = s.regs[0] := by
  by_cases h : i = 0
  · simp [h]
  · have : i.val ≠ 0 := fun e => h (Fin.ext e)
    simp [State.setReg, h, this]

end Sys2Proof.Machine
end

