-- ==== Sys2Proof/Machine/Units.lean ====
section
/-! DEFINITION. The machine as 40_units.md describes it: the decoder's outputs and control table (R120 to R127), the ALU
(R130 to R136), the PC unit (R140 to R145), and the step that composes them (R150). It is a second description of the
same machine, written from the units' rules and not from the instructions' rules; `datapathStep` and `step` are claimed
equal. -/

namespace Sys2Proof.Machine

/-! ## Arithmetic/logic unit -/

/-- The ALU's `op` input; its encoding as bits is not fixed and not observable (R130). -/
inductive AluOp where
  | add | sub | and | or | nor | sll | srl | slt | sltu | eq
  deriving DecidableEq, Repr

/-- The ALU's outputs (R130). -/
structure AluOut where
  y  : Word
  eq : Bool
  deriving DecidableEq, Repr

/-- The result `y` of one ALU operation (R131 to R135); for EQ it is unused (R133), so it is free. -/
def aluResult (op : AluOp) (a b : Word) (sh : Shamt) : Word :=
  match op with
  | .add  => a + b
  | .sub  => a - b
  | .and  => a &&& b
  | .or   => a ||| b
  | .nor  => ~~~(a ||| b)
  | .sll  => b <<< sh.toNat
  | .srl  => b >>> sh.toNat
  | .slt  => if a.slt b then 1 else 0
  | .sltu => if a.ult b then 1 else 0
  | .eq   => Config.unusedSignal

/-- The ALU: `eq` is computed for every `op` (R133). -/
def alu (op : AluOp) (a b : Word) (sh : Shamt) : AluOut := { y := aluResult op a b sh, eq := a == b }

/-! ## Decoder outputs -/

/-- The destination register of an instruction (R127 column `dest`). -/
inductive DestSel where
  | none | rd | rt | ra
  deriving DecidableEq, Repr

/-- What is written to the destination (R127 column `wsrc`). -/
inductive WriteSrc where
  | none | alu | load | link
  deriving DecidableEq, Repr

/-- An ALU operand input (R127 columns `a` and `b_sel`). -/
inductive OperandSel where
  | unused | rs | rt | imm
  deriving DecidableEq, Repr

/-- The memory operation (R127 column `mem`): a read of a width with sign or zero extension, or a write of a width. -/
inductive MemOp where
  | none
  | read (w : AccessWidth) (signed : Bool)
  | write (w : AccessWidth)
  deriving DecidableEq, Repr

/-- The PC unit's selection (R127 column `pc_ctl`, R140). -/
inductive PcCtl where
  | seq | beq | bne | j | jal | jr
  deriving DecidableEq, Repr

/-- One row of the control table (R127). An ALU operation of `none` is a `-` of the table; `useShamt` says that the
`sh` column holds shamt. -/
structure Control where
  aluOp    : Option AluOp
  a        : OperandSel
  b        : OperandSel
  useShamt : Bool
  dest     : DestSel
  wsrc     : WriteSrc
  mem      : MemOp
  pcCtl    : PcCtl
  cls      : Format
  deriving DecidableEq, Repr

/-- The row shape of the three-register ALU instructions. -/
def rAluRow (op : AluOp) : Control := ⟨some op, .rs, .rt, false, .rd, .alu, .none, .seq, .r⟩

/-- The row shape of the two shifts. -/
def shiftRow (op : AluOp) : Control := ⟨some op, .unused, .rt, true, .rd, .alu, .none, .seq, .r⟩

/-- The row shape of the immediate ALU instructions. -/
def iAluRow (op : AluOp) : Control := ⟨some op, .rs, .imm, false, .rt, .alu, .none, .seq, .i⟩

/-- The row shape of the loads. -/
def loadRow (w : AccessWidth) (signed : Bool) : Control :=
  ⟨some .add, .rs, .imm, false, .rt, .load, .read w signed, .seq, .i⟩

/-- The row shape of the stores. -/
def storeRow (w : AccessWidth) : Control := ⟨some .add, .rs, .imm, false, .none, .none, .write w, .seq, .i⟩

/-- The control table of R127. -/
def controlRow : Mnemonic → Control
  | .r .add  => rAluRow .add
  | .r .sub  => rAluRow .sub
  | .r .and  => rAluRow .and
  | .r .or   => rAluRow .or
  | .r .nor  => rAluRow .nor
  | .r .sll  => shiftRow .sll
  | .r .srl  => shiftRow .srl
  | .r .slt  => rAluRow .slt
  | .r .sltu => rAluRow .sltu
  | .r .jr   => ⟨none, .unused, .unused, false, .none, .none, .none, .jr, .r⟩
  | .i .addi  => iAluRow .add
  | .i .andi  => iAluRow .and
  | .i .ori   => iAluRow .or
  | .i .slti  => iAluRow .slt
  | .i .sltiu => iAluRow .sltu
  | .i .lw  => loadRow .word false
  | .i .lh  => loadRow .half true
  | .i .lb  => loadRow .byte true
  | .i .lhu => loadRow .half false
  | .i .sw  => storeRow .word
  | .i .sh  => storeRow .half
  | .i .sb  => storeRow .byte
  | .i .beq => ⟨some .eq, .rs, .rt, false, .none, .none, .none, .beq, .i⟩
  | .i .bne => ⟨some .eq, .rs, .rt, false, .none, .none, .none, .bne, .i⟩
  | .j .j   => ⟨none, .unused, .unused, false, .none, .none, .none, .j, .j⟩
  | .j .jal => ⟨none, .unused, .unused, false, .ra, .link, .none, .jal, .j⟩

/-- The mnemonics "classified as jump or branch": exactly j, jal, jr, beq and bne (R126). -/
def isControlTransfer : Mnemonic → Bool
  | .r .jr => true
  | .i .beq => true
  | .i .bne => true
  | .j _ => true
  | .r _ => false
  | .i _ => false

/-- The decoder's output `is_ctl`, false for `unknown` (R126). -/
def isCtl : Option Mnemonic → Bool
  | some k => isControlTransfer k
  | none => false

/-- The immediate extension: zero for andi and ori, sign for every other word (R125). -/
def immExtend (k : Option Mnemonic) (imm : Imm) : Word :=
  match k with
  | some (.i .andi) => zext16 imm
  | some (.i .ori) => zext16 imm
  | _ => sext16 imm

/-- The decoder's outputs (R120): the format, all raw fields, the mnemonic or `unknown`, the extended immediate, the
control class (R126), and the control row when the mnemonic is known. -/
structure DecoderOut where
  fmt    : Format
  opcode : OpField
  rs     : RegIdx
  rt     : RegIdx
  rd     : RegIdx
  shamt  : Shamt
  funct  : OpField
  imm    : Imm
  target : Target
  mnem   : Option Mnemonic
  immExt : Word
  isCtl  : Bool
  ctl    : Option Control
  deriving DecidableEq, Repr

/-- The mnemonic of a word (R123). -/
def mnemonicOf (m : OpcodeMap) (w : Word) : Option Mnemonic :=
  match formatOf (opcodeField w) with
  | .r => (m.rMnem (functField w)).map .r
  | .i => (m.iMnem (opcodeField w)).map .i
  | .j => (m.jMnem (opcodeField w)).map .j

/-- The decoder block (R120 to R127), combinational. -/
def decoderOutputs (m : OpcodeMap) (w : Word) : DecoderOut where
  fmt := formatOf (opcodeField w)
  opcode := opcodeField w
  rs := rsField w
  rt := rtField w
  rd := rdField w
  shamt := shamtField w
  funct := functField w
  imm := immField w
  target := targetField w
  mnem := mnemonicOf m w
  immExt := immExtend (mnemonicOf m w) (immField w)
  isCtl := isCtl (mnemonicOf m w)
  ctl := (mnemonicOf m w).map controlRow

/-! ## PC incrementer and branch/jump resolver -/

/-- The PC unit's outputs (R140). -/
structure PcOut where
  nextPc : Word
  link   : Word
  deriving DecidableEq, Repr

/-- The PC unit (R141 to R145). -/
def pcUnit (pc : Word) (ctl : PcCtl) (imm : Imm) (target : Target) (rsVal : Word) (eq : Bool) : PcOut where
  nextPc :=
    match ctl with
    | .seq => pcPlus4 pc
    | .beq => if eq then branchTarget pc imm else pcPlus4 pc
    | .bne => if eq then pcPlus4 pc else branchTarget pc imm
    | .j   => jumpTarget pc target
    | .jal => jumpTarget pc target
    | .jr  => rsVal
  link := pcPlus4 pc

/-! ## The step over the units (R150) -/

/-- The value on an ALU operand input; an unused input is free. -/
def operandValue (s : State) (d : DecoderOut) : OperandSel → Word
  | .unused => Config.unusedSignal
  | .rs => s.reg d.rs
  | .rt => s.reg d.rt
  | .imm => d.immExt

/-- The ALU stage of a decoded word; with no ALU operation its outputs are unused, so they are free. -/
def aluStage (s : State) (d : DecoderOut) (c : Control) : AluOut :=
  match c.aluOp with
  | some op => alu op (operandValue s d c.a) (operandValue s d c.b) (if c.useShamt then d.shamt else Config.unusedShamt)
  | none => { y := Config.unusedSignal, eq := Config.unusedSignal == 0 }

/-- `MemRead` of a width with its extension (R127 column `mem`). -/
def loadExtended (m : Memory) (a : Word) (w : AccessWidth) (signed : Bool) : Word :=
  match w, signed with
  | .byte, true => sext8 (m.readByte a)
  | .byte, false => (m.readByte a).setWidth 32
  | .half, true => sext16 (m.readHalf a)
  | .half, false => zext16 (m.readHalf a)
  | .word, _ => m.readWord a

/-- `MemWrite` of the low bytes of a word. -/
def storeLow (m : Memory) (a : Word) (w : AccessWidth) (v : Word) : Memory :=
  match w with
  | .byte => m.writeByte a (v.setWidth 8)
  | .half => m.writeHalf a (v.setWidth 16)
  | .word => m.writeWord a v

/-- The written register's value (R127 column `wsrc`). -/
def writeValue (y loaded link : Word) : WriteSrc → Word
  | .none => Config.unusedSignal
  | .alu => y
  | .load => loaded
  | .link => link

/-- The register write of a decoded word (R127 column `dest`). -/
def commitReg (s : State) (d : DecoderOut) (dest : DestSel) (v : Word) : State :=
  match dest with
  | .none => s
  | .rd => s.setReg d.rd v
  | .rt => s.setReg d.rt v
  | .ra => s.setReg 31 v

/-- The commit of R150, past which no fault is possible: memory, register, pc, statistics. -/
def commit (s : State) (d : DecoderOut) (c : Control) (out : AluOut) (loaded : Word) (m : Memory) : Result :=
  let pcOut := pcUnit s.pc c.pcCtl d.imm d.target (s.reg d.rs) out.eq
  .next ((commitReg { s with mem := m } d c.dest (writeValue out.y loaded pcOut.link c.wsrc)).retire c.cls pcOut.nextPc)

/-- The execution of a decoded word over the units: ALU, range check of the data access, commit (R150). -/
def datapathExec (s : State) (d : DecoderOut) (c : Control) : Result :=
  let out := aluStage s d c
  match c.mem with
  | .none => commit s d c out Config.unusedSignal s.mem
  | .read w signed => s.guardAccess out.y w (commit s d c out (loadExtended s.mem out.y w signed) s.mem)
  | .write w => s.guardAccess out.y w (commit s d c out Config.unusedSignal (storeLow s.mem out.y w (s.reg d.rt)))

/-- One step over the units (R150). -/
def datapathStep (s : State) : Result :=
  if s.halted then .next s.complete
  else
    match s.fetch with
    | .error f => .fault f
    | .ok w =>
      match (decoderOutputs s.params.opcodeMap w).ctl with
      | none => .fault (.unsupportedInstruction w s.pc)
      | some c => datapathExec s (decoderOutputs s.params.opcodeMap w) c

end Sys2Proof.Machine
end

