-- ==== Sys2Proof/Safety.lean ====
section
/-! DEFINITION. The vocabulary of the claims: what an instruction may write and access, the frames, the invariant of the
machine, and when a step is safe. -/

namespace Sys2Proof.Machine

/-! ## What an instruction touches -/

/-- The statistics class of an instruction, as 60_exceptions.md R340 lists it. -/
def instrClass : Instr → Format
  | .add _ _ _ | .sub _ _ _ | .and _ _ _ | .or _ _ _ | .nor _ _ _ => .r
  | .sll _ _ _ | .srl _ _ _ | .slt _ _ _ | .sltu _ _ _ | .jr _ => .r
  | .addi _ _ _ | .andi _ _ _ | .ori _ _ _ | .slti _ _ _ | .sltiu _ _ _ => .i
  | .lw _ _ _ | .lh _ _ _ | .lb _ _ _ | .lhu _ _ _ | .sw _ _ _ | .sh _ _ _ | .sb _ _ _ => .i
  | .beq _ _ _ | .bne _ _ _ => .i
  | .j _ | .jal _ => .j

/-- The register an instruction writes, as 10_state.md R23 lists it. -/
def destination : Instr → Option RegIdx
  | .add rd _ _ | .sub rd _ _ | .and rd _ _ | .or rd _ _ | .nor rd _ _ => some rd
  | .sll rd _ _ | .srl rd _ _ | .slt rd _ _ | .sltu rd _ _ => some rd
  | .addi rt _ _ | .andi rt _ _ | .ori rt _ _ | .slti rt _ _ | .sltiu rt _ _ => some rt
  | .lw rt _ _ | .lh rt _ _ | .lb rt _ _ | .lhu rt _ _ => some rt
  | .jal _ => some 31
  | .jr _ | .sw _ _ _ | .sh _ _ _ | .sb _ _ _ | .beq _ _ _ | .bne _ _ _ | .j _ => none

/-- The data access of an instruction in a state, as 20_memory.md R52 lists them: address and width. -/
def dataAccess (s : State) : Instr → Option (Word × AccessWidth)
  | .lw _ rs imm | .sw _ rs imm => some (s.ea rs imm, .word)
  | .lh _ rs imm | .lhu _ rs imm | .sh _ rs imm => some (s.ea rs imm, .half)
  | .lb _ rs imm | .sb _ rs imm => some (s.ea rs imm, .byte)
  | .add _ _ _ | .sub _ _ _ | .and _ _ _ | .or _ _ _ | .nor _ _ _ => none
  | .sll _ _ _ | .srl _ _ _ | .slt _ _ _ | .sltu _ _ _ | .jr _ => none
  | .addi _ _ _ | .andi _ _ _ | .ori _ _ _ | .slti _ _ _ | .sltiu _ _ _ => none
  | .beq _ _ _ | .bne _ _ _ | .j _ | .jal _ => none

/-- Whether an instruction stores (20_memory.md R52). -/
def isStore : Instr → Bool
  | .sw _ _ _ | .sh _ _ _ | .sb _ _ _ => true
  | .add _ _ _ | .sub _ _ _ | .and _ _ _ | .or _ _ _ | .nor _ _ _ => false
  | .sll _ _ _ | .srl _ _ _ | .slt _ _ _ | .sltu _ _ _ | .jr _ => false
  | .addi _ _ _ | .andi _ _ _ | .ori _ _ _ | .slti _ _ _ | .sltiu _ _ _ => false
  | .lw _ _ _ | .lh _ _ _ | .lb _ _ _ | .lhu _ _ _ => false
  | .beq _ _ _ | .bne _ _ _ | .j _ | .jal _ => false

/-- A word that is `unknown`: "an opcode outside R88, or opcode 0 with a funct outside R89" (60_exceptions.md R321), with
the numbers of the two tables written out. -/
def unknownWord (w : Word) : Prop :=
  (w.extractLsb' 26 6 = 0 ∧
    w.extractLsb' 0 6 ∉ ([0x00, 0x02, 0x08, 0x20, 0x22, 0x24, 0x25, 0x27, 0x2A, 0x2B] : List (BitVec 6))) ∨
  w.extractLsb' 26 6 ∉ ([0x00, 0x02, 0x03, 0x04, 0x05, 0x08, 0x0A, 0x0B, 0x0C, 0x0D, 0x20, 0x21, 0x23, 0x25, 0x28,
    0x29, 0x2B] : List (BitVec 6))

/-- A word that is `unknown` under an opcode map: the format is that of its opcode (30_encoding.md R81), and the map has no
row of that format with its funct or opcode (40_units.md R123). -/
def unknownUnder (m : OpcodeMap) (w : Word) : Prop :=
  (w.extractLsb' 26 6 = 0 ∧ w.extractLsb' 0 6 ∉ m.functs) ∨
  (w.extractLsb' 26 6 ∈ ([2, 3] : List (BitVec 6)) ∧ w.extractLsb' 26 6 ∉ m.jOpcodes) ∨
  (w.extractLsb' 26 6 ∉ ([0, 2, 3] : List (BitVec 6)) ∧ w.extractLsb' 26 6 ∉ m.iOpcodes)

/-- pc lies in `[LOAD_BASE, code_end)` (10_state.md R30). -/
def InProgram (s : State) : Prop := s.params.loadBase.toNat ≤ s.pc.toNat ∧ s.pc.toNat < s.codeEnd.toNat

/-- Every word with opcode 0 and funct `f` decodes to the instruction `mk` builds from its fields (30_encoding.md R90). -/
def RWordDecodes (f : OpField) (mk : Word → Instr) : Prop :=
  ∀ w : Word, w.extractLsb' 26 6 = 0 → w.extractLsb' 0 6 = f → decode w = .ok (mk w)

/-- Every word with opcode `op` decodes to the instruction `mk` builds from its fields (30_encoding.md R90). -/
def OpWordDecodes (op : OpField) (mk : Word → Instr) : Prop :=
  ∀ w : Word, w.extractLsb' 26 6 = op → decode w = .ok (mk w)

/-- The bits of an instruction's word that it uses: all but the ignored fields of 30_encoding.md R93. -/
def usedBits : Instr → Word
  | .add _ _ _ | .sub _ _ _ | .and _ _ _ | .or _ _ _ | .nor _ _ _ | .slt _ _ _ | .sltu _ _ _ => 0xFFFFF83F
  | .sll _ _ _ | .srl _ _ _ => 0xFC1FFFFF
  | .jr _ => 0xFFE0003F
  | .addi _ _ _ | .andi _ _ _ | .ori _ _ _ | .slti _ _ _ | .sltiu _ _ _ => 0xFFFFFFFF
  | .lw _ _ _ | .lh _ _ _ | .lb _ _ _ | .lhu _ _ _ | .sw _ _ _ | .sh _ _ _ | .sb _ _ _ => 0xFFFFFFFF
  | .beq _ _ _ | .bne _ _ _ | .j _ | .jal _ => 0xFFFFFFFF

/-- An access of `n` bytes at `a` is in range: under `Fixed`, `int(A) + W <= MEM_CAPACITY` (20_memory.md R53). -/
def InRange (s : State) (a : Word) (n : Nat) : Prop :=
  ∀ capacity : Nat, s.params.memPolicy = .fixed capacity → a.toNat + n ≤ capacity

/-! ## Frames -/

/-- One byte of a state's memory. -/
def State.byteAt (s : State) (a : Word) : Byte := s.mem.readByte a

/-- Every register but `d` reads as before. -/
def RegsKeptBut (d : RegIdx) (s t : State) : Prop := ∀ r : RegIdx, r ≠ d → t.reg r = s.reg r

/-- Every register reads as before. -/
def RegsKept (s t : State) : Prop := ∀ r : RegIdx, t.reg r = s.reg r

/-- Every byte of memory reads as before. -/
def MemoryKept (s t : State) : Prop := ∀ a : Word, t.byteAt a = s.byteAt a

/-- Whether `a` is one of the `n` byte addresses `A`, `A+1`, ... modulo 2^32 of an access at `A` (20_memory.md R54). -/
def inAccess (start : Word) (n : Nat) (a : Word) : Prop := (a - start).toNat < n

/-- Every byte outside the `n` bytes from `start` on reads as before. -/
def MemoryKeptOutside (start : Word) (n : Nat) (s t : State) : Prop :=
  ∀ a : Word, ¬ inAccess start n a → t.byteAt a = s.byteAt a

/-- The state that no instruction writes: program end, engine mode, pause request, what the engine remembers for the host,
clock and parameters. -/
def EngineKept (s t : State) : Prop :=
  t.codeEnd = s.codeEnd ∧ t.mode = s.mode ∧ t.pauseRequested = s.pauseRequested ∧ t.pendingFault = s.pendingFault ∧
    t.lastWord = s.lastWord ∧ t.clock = s.clock ∧ t.params = s.params

/-- One more instruction of a class counted, and its cycles (60_exceptions.md R340). -/
def Counted (k : Format) (s t : State) : Prop :=
  t.stats.countR = s.stats.countR + (if k = .r then 1 else 0) ∧
  t.stats.countI = s.stats.countI + (if k = .i then 1 else 0) ∧
  t.stats.countJ = s.stats.countJ + (if k = .j then 1 else 0) ∧
  t.stats.cycles = s.stats.cycles +
    (match k with
     | .r => s.clock.cpiR
     | .i => s.clock.cpiI
     | .j => s.clock.cpiJ)

/-- `i` completes in `s`, writes `v` to `d` (nothing if `d` is register 0), goes on at `pc + 4`, counts as class `k`, and
changes nothing else. -/
def WritesRegister (i : Instr) (s : State) (k : Format) (d : RegIdx) (v : Word) : Prop :=
  ∃ t : State, exec i s = .next t ∧ t.reg d = (if d = 0 then 0 else v) ∧ RegsKeptBut d s t ∧ t.pc = s.pc + 4 ∧
    MemoryKept s t ∧ EngineKept s t ∧ Counted k s t

/-- `i` completes in `s`, goes to `target`, counts as class `k`, and changes nothing else. -/
def GoesTo (i : Instr) (s : State) (k : Format) (target : Word) : Prop :=
  ∃ t : State, exec i s = .next t ∧ t.pc = target ∧ RegsKept s t ∧ MemoryKept s t ∧ EngineKept s t ∧ Counted k s t

/-- `i` completes in `s`, stores the `n` low bytes of `v` at `start`, the lowest first, goes on at `pc + 4`, counts as
class I, and changes nothing else. -/
def StoresBytes (i : Instr) (s : State) (start : Word) (n : Nat) (v : Word) : Prop :=
  ∃ t : State, exec i s = .next t ∧
    (∀ k : Nat, k < n → t.byteAt (start + BitVec.ofNat 32 k) = v.extractLsb' (8 * k) 8) ∧
    MemoryKeptOutside start n s t ∧ t.pc = s.pc + 4 ∧ RegsKept s t ∧ EngineKept s t ∧ Counted .i s t

/-! ## Source lines, as 45_assembler.md spells them

A second description of the text layer, from R285 to R293 and the tables of R286 and R287, that uses nothing of the
assembler: which texts spell an instruction. -/

/-- The register names of R286 with their indices (log 13). -/
def registerNameTable : List (Nat × String) :=
  [(0, "zero"), (1, "at"), (2, "v0"), (3, "v1"), (4, "a0"), (5, "a1"), (6, "a2"), (7, "a3"),
   (8, "t0"), (9, "t1"), (10, "t2"), (11, "t3"), (12, "t4"), (13, "t5"), (14, "t6"), (15, "t7"),
   (16, "s0"), (17, "s1"), (18, "s2"), (19, "s3"), (20, "s4"), (21, "s5"), (22, "s6"), (23, "s7"),
   (24, "t8"), (25, "t9"), (26, "k0"), (27, "k1"), (28, "gp"), (29, "sp"), (30, "fp"), (31, "ra")]

/-- `t` spells register `r`: "an optional leading `$` followed by either a decimal index 0 .. 31 or a register name"
(R286). -/
def SpellsRegister (t : Text) (r : RegIdx) : Prop :=
  ∃ u : Text, (t = u ∨ t = '$' :: u) ∧
    (u = Nat.toDigits 10 r.val ∨ ∃ name : String, (r.val, name) ∈ registerNameTable ∧ u = name.toList)

/-- `t` spells the number `v`: "decimal, optionally with a leading `-`, or hexadecimal with the prefix `0x`" (R288). -/
def SpellsNumber (t : Text) (v : Int) : Prop :=
  ∃ n : Nat, (v = n ∧ (t = Nat.toDigits 10 n ∨ t = '0' :: 'x' :: Nat.toDigits 16 n)) ∨
    (v = -(n : Int) ∧ t = '-' :: Nat.toDigits 10 n)

/-- `m a, b, c`. -/
def threeOperands (m : String) (a b c : Text) : Text := m.toList ++ [' '] ++ a ++ [',', ' '] ++ b ++ [',', ' '] ++ c

/-- `m rd, rs, rt`: the registers in the order of the text (R287). -/
def SpellsRegisters (t : Text) (m : String) (x y z : RegIdx) : Prop :=
  ∃ a b c : Text, SpellsRegister a x ∧ SpellsRegister b y ∧ SpellsRegister c z ∧ t = threeOperands m a b c

/-- `m x, y, v`: two registers in the order of the text, then a number of which the low `n` bits are kept (R289, R290,
R293). -/
def SpellsWithNumber (t : Text) (m : String) (x y : RegIdx) {n : Nat} (field : BitVec n) : Prop :=
  ∃ (a b c : Text) (v : Int), SpellsRegister a x ∧ SpellsRegister b y ∧ SpellsNumber c v ∧ field = BitVec.ofInt n v ∧
    t = threeOperands m a b c

/-- `m rt, imm(rs)` (R287, R292). -/
def SpellsMemory (t : Text) (m : String) (rt rs : RegIdx) (imm : Imm) : Prop :=
  ∃ (a off b : Text) (v : Int), SpellsRegister a rt ∧ SpellsNumber off v ∧ SpellsRegister b rs ∧
    imm = BitVec.ofInt 16 v ∧ t = m.toList ++ [' '] ++ a ++ [',', ' '] ++ off ++ ['('] ++ b ++ [')']

/-- `m v`, the literal form of a jump, masked to 26 bits (R291). -/
def SpellsJump (t : Text) (m : String) (target : Target) : Prop :=
  ∃ (a : Text) (v : Int), SpellsNumber a v ∧ target = BitVec.ofInt 26 v ∧ t = m.toList ++ [' '] ++ a

/-- `t` spells the instruction, in the syntax R287 gives its mnemonic, with literal operands. -/
def Spells (t : Text) : Instr → Prop
  | .add rd rs rt => SpellsRegisters t "add" rd rs rt
  | .sub rd rs rt => SpellsRegisters t "sub" rd rs rt
  | .and rd rs rt => SpellsRegisters t "and" rd rs rt
  | .or rd rs rt => SpellsRegisters t "or" rd rs rt
  | .nor rd rs rt => SpellsRegisters t "nor" rd rs rt
  | .sll rd rt sa => SpellsWithNumber t "sll" rd rt sa
  | .srl rd rt sa => SpellsWithNumber t "srl" rd rt sa
  | .slt rd rs rt => SpellsRegisters t "slt" rd rs rt
  | .sltu rd rs rt => SpellsRegisters t "sltu" rd rs rt
  | .jr rs => ∃ a : Text, SpellsRegister a rs ∧ t = "jr".toList ++ [' '] ++ a
  | .addi rt rs imm => SpellsWithNumber t "addi" rt rs imm
  | .andi rt rs imm => SpellsWithNumber t "andi" rt rs imm
  | .ori rt rs imm => SpellsWithNumber t "ori" rt rs imm
  | .slti rt rs imm => SpellsWithNumber t "slti" rt rs imm
  | .sltiu rt rs imm => SpellsWithNumber t "sltiu" rt rs imm
  | .lw rt rs imm => SpellsMemory t "lw" rt rs imm
  | .lh rt rs imm => SpellsMemory t "lh" rt rs imm
  | .lb rt rs imm => SpellsMemory t "lb" rt rs imm
  | .lhu rt rs imm => SpellsMemory t "lhu" rt rs imm
  | .sw rt rs imm => SpellsMemory t "sw" rt rs imm
  | .sh rt rs imm => SpellsMemory t "sh" rt rs imm
  | .sb rt rs imm => SpellsMemory t "sb" rt rs imm
  | .beq rs rt imm => SpellsWithNumber t "beq" rs rt imm
  | .bne rs rt imm => SpellsWithNumber t "bne" rs rt imm
  | .j target => SpellsJump t "j" target
  | .jal target => SpellsJump t "jal" target

/-! ## The invariant -/

/-- The bound of the byte addresses of a memory policy (20_memory.md R51). -/
def addressBound : MemPolicy → Nat
  | .fixed capacity => capacity
  | .sparse => 2 ^ 32

/-- What holds of every state of the machine: memory in canonical form and within its bound, register 0 stored as zero
(10_state.md R22), parameters and clock well formed. -/
structure Inv (s : State) : Prop where
  memCanonical : s.mem.wf
  memInBounds : s.mem.below (addressBound s.params.memPolicy)
  zeroIsZero : s.regs[0] = 0
  paramsWellFormed : s.params.wellFormed = true
  clockWellFormed : s.clock.wellFormed = true

/-- `cycles` is the sum over the classes of instructions executed times cycles per instruction (60_exceptions.md R340,
R341), which holds as long as the clock has not been reconfigured since the load (R342). -/
def CyclesAreTheSum (s : State) : Prop :=
  s.stats.cycles = s.stats.countR * s.clock.cpiR + s.stats.countI * s.clock.cpiI + s.stats.countJ * s.clock.cpiJ

/-- A step is safe in a state if it gives a next state. -/
def SafeStep (s : State) : Prop := ∃ t : State, step s = .next t

end Sys2Proof.Machine
end

