-- ==== Sys2Proof/Laws/Ops.lean ====
section
/-! SUPPORT. What each shared operation of a meaning can do, once: the range check, the register writeback, the load, the
store, the jump; and the counting of statistics. Proofs cite these and unfold no operation. -/

namespace Sys2Proof.Machine

/-! ## The range check -/

/-- A guarded result that is a next state passed the check. -/
theorem guardAccess_next {s t : State} {a : Word} {w : AccessWidth} {ok : Result}
    (h : s.guardAccess a w ok = .next t) : s.inRange a w = true ∧ ok = .next t := by
  unfold State.guardAccess at h
  split at h
  · exact ⟨‹_›, h⟩
  · cases h

/-- In range, the guard is the guarded result. -/
theorem guardAccess_inRange {s : State} {a : Word} {w : AccessWidth} (ok : Result) (h : s.inRange a w = true) :
    s.guardAccess a w ok = ok := by simp [State.guardAccess, h]

/-- Out of range, the guard is the fault of R322. -/
theorem guardAccess_outOfRange {s : State} {a : Word} {w : AccessWidth} (ok : Result) (h : s.inRange a w = false) :
    s.guardAccess a w ok = .fault (.addressOutOfRange a w s.pc) := by simp [State.guardAccess, h]

/-- The check of the model is the condition of 20_memory.md R53. -/
theorem inRange_iff {s : State} {a : Word} {w : AccessWidth} : s.inRange a w = true ↔ InRange s a w.bytes := by
  unfold State.inRange InRange accessInRange
  cases h : s.params.memPolicy <;> simp

/-- Out of range, the check of the model fails. -/
theorem inRange_false {s : State} {a : Word} {w : AccessWidth} (h : ¬ InRange s a w.bytes) : s.inRange a w = false := by
  rw [← inRange_iff] at h
  simpa using h

/-- Every byte of an access that passes the range check lies below the bound of the memory policy. -/
theorem byte_below_of_inRange {p : MemPolicy} {a : Word} {n : Nat} (h : accessInRange p a n = true) (k : Nat)
    (hk : k < n) : (a + BitVec.ofNat 32 k).toNat < addressBound p := by
  cases p with
  | sparse => exact BitVec.isLt _
  | fixed cap =>
    simp only [accessInRange, decide_eq_true_eq] at h
    simp only [addressBound, BitVec.toNat_add, BitVec.toNat_ofNat]
    omega

/-! ## Statistics -/

/-- What `retire` counts (R340). -/
theorem counted_retire (s u : State) (k : Format) (p : Word) (hs : u.stats = s.stats) (hc : u.clock = s.clock) :
    Counted k s (u.retire k p) := by
  cases k <;> simp [Counted, Stats.count, cyclesPer, hs, hc]

/-! ## The shapes of the meanings -/

/-- A register writeback completes, writes that register, and changes nothing else but pc and statistics. -/
theorem writeback_spec (s : State) (k : Format) (d : RegIdx) (v : Word) :
    ∃ t : State, s.writeback k d v = .next t ∧ t.reg d = (if d = 0 then 0 else v) ∧ RegsKeptBut d s t ∧
      t.pc = s.pc + 4 ∧ t.mem = s.mem ∧ EngineKept s t ∧ Counted k s t := by
  refine ⟨_, rfl, ?_, ?_, rfl, by simp, ?_, ?_⟩
  · simp [State.reg_setReg_self]
  · intro r hr
    simp [State.reg_setReg_of_ne s v hr]
  · simp [EngineKept]
  · exact counted_retire s _ k _ (by simp) (by simp)

/-- The next state of a register writeback. -/
theorem writeback_next {s t : State} {k : Format} {d : RegIdx} {v : Word} (h : s.writeback k d v = .next t) :
    t = (s.setReg d v).retire k (pcPlus4 s.pc) := by
  cases h; rfl

/-- The next state of a load: the access was in range and the register was written. -/
theorem loadInto_next {s t : State} {d : RegIdx} {a : Word} {w : AccessWidth} {v : Word}
    (h : s.loadInto d a w v = .next t) :
    s.inRange a w = true ∧ t = (s.setReg d v).retire .i (pcPlus4 s.pc) :=
  ⟨(guardAccess_next h).1, writeback_next (guardAccess_next h).2⟩

/-- The next state of a store: the access was in range and the memory was changed. -/
theorem storeTo_next {s t : State} {a : Word} {w : AccessWidth} {m : Memory} (h : s.storeTo a w m = .next t) :
    s.inRange a w = true ∧ t = ({ s with mem := m } : State).retire .i (pcPlus4 s.pc) := by
  obtain ⟨h1, h2⟩ := guardAccess_next h
  exact ⟨h1, by cases h2; rfl⟩

/-- A jump completes, goes to its target, and changes nothing else but the statistics. -/
theorem goto_spec (s : State) (k : Format) (p : Word) :
    ∃ t : State, s.goto k p = .next t ∧ t.pc = p ∧ RegsKept s t ∧ t.mem = s.mem ∧ EngineKept s t ∧ Counted k s t :=
  ⟨_, rfl, rfl, fun _ => rfl, rfl, by simp [EngineKept], counted_retire s s k p rfl rfl⟩

/-- The next state of a jump. -/
theorem goto_next {s t : State} {k : Format} {p : Word} (h : s.goto k p = .next t) : t = s.retire k p := by
  cases h; rfl

/-- Memory as a list is kept, so every byte is. -/
theorem memoryKept_of_eq {s t : State} (h : t.mem = s.mem) : MemoryKept s t := fun a => by
  simp [State.byteAt, h]

end Sys2Proof.Machine
end

