-- ==== Sys2Proof/Laws/Exec.lean ====
section
/-! SUPPORT. What one instruction and one step can do, once: the inversion of `exec` and of `step`. The invariants and
frames follow from these without unfolding a meaning again. -/

namespace Sys2Proof.Machine

/-- The commit of an instruction before `retire`: nothing, the write of its destination register, or its store. -/
def Committed (i : Instr) (s u : State) : Prop :=
  (destination i = none ∧ isStore i = false ∧ u = s) ∨
  (isStore i = false ∧ ∃ d v, destination i = some d ∧ u = s.setReg d v) ∨
  (destination i = none ∧ isStore i = true ∧ ∃ a w v, dataAccess s i = some (a, w) ∧ s.inRange a w = true ∧
    u = { s with mem := storeLow s.mem a w v })

/-- Whatever completes, commits at most its destination register or its store, then retires in its class. -/
theorem exec_next {i : Instr} {s t : State} (h : exec i s = .next t) :
    ∃ u p, Committed i s u ∧ t = u.retire (instrClass i) p := by
  cases i with
  | add rd rs rt => exact ⟨_, _, .inr (.inl ⟨rfl, _, _, rfl, rfl⟩), writeback_next h⟩
  | sub rd rs rt => exact ⟨_, _, .inr (.inl ⟨rfl, _, _, rfl, rfl⟩), writeback_next h⟩
  | and rd rs rt => exact ⟨_, _, .inr (.inl ⟨rfl, _, _, rfl, rfl⟩), writeback_next h⟩
  | or rd rs rt => exact ⟨_, _, .inr (.inl ⟨rfl, _, _, rfl, rfl⟩), writeback_next h⟩
  | nor rd rs rt => exact ⟨_, _, .inr (.inl ⟨rfl, _, _, rfl, rfl⟩), writeback_next h⟩
  | sll rd rt sa => exact ⟨_, _, .inr (.inl ⟨rfl, _, _, rfl, rfl⟩), writeback_next h⟩
  | srl rd rt sa => exact ⟨_, _, .inr (.inl ⟨rfl, _, _, rfl, rfl⟩), writeback_next h⟩
  | slt rd rs rt => exact ⟨_, _, .inr (.inl ⟨rfl, _, _, rfl, rfl⟩), writeback_next h⟩
  | sltu rd rs rt => exact ⟨_, _, .inr (.inl ⟨rfl, _, _, rfl, rfl⟩), writeback_next h⟩
  | jr rs => exact ⟨_, _, .inl ⟨rfl, rfl, rfl⟩, goto_next h⟩
  | addi rt rs imm => exact ⟨_, _, .inr (.inl ⟨rfl, _, _, rfl, rfl⟩), writeback_next h⟩
  | andi rt rs imm => exact ⟨_, _, .inr (.inl ⟨rfl, _, _, rfl, rfl⟩), writeback_next h⟩
  | ori rt rs imm => exact ⟨_, _, .inr (.inl ⟨rfl, _, _, rfl, rfl⟩), writeback_next h⟩
  | slti rt rs imm => exact ⟨_, _, .inr (.inl ⟨rfl, _, _, rfl, rfl⟩), writeback_next h⟩
  | sltiu rt rs imm => exact ⟨_, _, .inr (.inl ⟨rfl, _, _, rfl, rfl⟩), writeback_next h⟩
  | lw rt rs imm => exact ⟨_, _, .inr (.inl ⟨rfl, _, _, rfl, rfl⟩), (loadInto_next h).2⟩
  | lh rt rs imm => exact ⟨_, _, .inr (.inl ⟨rfl, _, _, rfl, rfl⟩), (loadInto_next h).2⟩
  | lb rt rs imm => exact ⟨_, _, .inr (.inl ⟨rfl, _, _, rfl, rfl⟩), (loadInto_next h).2⟩
  | lhu rt rs imm => exact ⟨_, _, .inr (.inl ⟨rfl, _, _, rfl, rfl⟩), (loadInto_next h).2⟩
  | sw rt rs imm =>
    exact ⟨_, _, .inr (.inr ⟨rfl, rfl, _, .word, s.reg rt, rfl, (storeTo_next h).1, rfl⟩), (storeTo_next h).2⟩
  | sh rt rs imm =>
    exact ⟨_, _, .inr (.inr ⟨rfl, rfl, _, .half, s.reg rt, rfl, (storeTo_next h).1, rfl⟩), (storeTo_next h).2⟩
  | sb rt rs imm =>
    exact ⟨_, _, .inr (.inr ⟨rfl, rfl, _, .byte, s.reg rt, rfl, (storeTo_next h).1, rfl⟩), (storeTo_next h).2⟩
  | beq rs rt imm => exact ⟨_, _, .inl ⟨rfl, rfl, rfl⟩, goto_next h⟩
  | bne rs rt imm => exact ⟨_, _, .inl ⟨rfl, rfl, rfl⟩, goto_next h⟩
  | j target => exact ⟨_, _, .inl ⟨rfl, rfl, rfl⟩, goto_next h⟩
  | jal target => exact ⟨_, _, .inr (.inl ⟨rfl, _, _, rfl, rfl⟩), goto_next h⟩

/-- The one way an instruction faults: its data access is out of range (R322). -/
theorem exec_fault {i : Instr} {s : State} {f : Fault} (h : exec i s = .fault f) :
    ∃ a w, dataAccess s i = some (a, w) ∧ s.inRange a w = false ∧ f = .addressOutOfRange a w s.pc := by
  have guard : ∀ a w u, s.guardAccess a w (.next u) = .fault f →
      s.inRange a w = false ∧ f = .addressOutOfRange a w s.pc := by
    intro a w u hg
    cases hr : s.inRange a w with
    | true => rw [guardAccess_inRange _ hr] at hg; cases hg
    | false => rw [guardAccess_outOfRange _ hr] at hg; cases hg; exact ⟨rfl, rfl⟩
  cases i
  case lw | lh | lb | lhu => exact ⟨_, _, rfl, guard _ _ _ h⟩
  case sw | sh | sb => exact ⟨_, _, rfl, guard _ _ _ h⟩
  all_goals cases h

/-- No instruction is refused. -/
theorem exec_ne_refused (i : Instr) (s : State) (r : Refusal) : exec i s ≠ .refused r := by
  have guard : ∀ a w u, s.guardAccess a w (.next u) ≠ .refused r := by
    intro a w u hg
    unfold State.guardAccess at hg
    split at hg <;> cases hg
  cases i
  case lw | lh | lb | lhu => exact guard _ _ _
  case sw | sh | sb => exact guard _ _ _
  all_goals intro h; cases h

/-- The two ways a step gives a next state: completion, or the execution of the decoded instruction. -/
theorem step_next {s t : State} (h : step s = .next t) :
    (s.halted = true ∧ t = s.complete) ∨
    (s.halted = false ∧ ∃ w i, s.fetch = .ok w ∧ decodeWith s.params.opcodeMap w = .ok i ∧ exec i s = .next t) := by
  unfold step at h
  split at h
  · exact .inl ⟨‹_›, by cases h; rfl⟩
  · rename_i hh
    refine .inr ⟨by simpa using hh, ?_⟩
    split at h
    · cases h
    · rename_i w hw
      split at h
      · cases h
      · rename_i i hi
        exact ⟨w, i, hw, hi, h⟩

/-- The three ways a step faults, in the order of R327: the fetch, the unknown word, the instruction. -/
theorem step_fault {s : State} {f : Fault} (h : step s = .fault f) :
    s.halted = false ∧
    (s.fetch = .error f ∨
     (∃ w e, s.fetch = .ok w ∧ decodeWith s.params.opcodeMap w = .error e ∧ f = .unsupportedInstruction w s.pc) ∨
     ∃ w i, s.fetch = .ok w ∧ decodeWith s.params.opcodeMap w = .ok i ∧ exec i s = .fault f) := by
  unfold step at h
  split at h
  · cases h
  · rename_i hh
    refine ⟨by simpa using hh, ?_⟩
    split at h
    · rename_i f' hf
      cases h
      exact .inl hf
    · rename_i w hw
      split at h
      · rename_i e he
        cases h
        exact .inr (.inl ⟨w, e, hw, he, rfl⟩)
      · rename_i i hi
        exact .inr (.inr ⟨w, i, hw, hi, h⟩)

/-- Outside the program a step completes the run. -/
theorem step_of_halted {s : State} (h : s.halted = true) : step s = .next s.complete := by simp [step, h]

/-- Inside the program, a fetched and decoded instruction is executed. -/
theorem step_of_decode {s : State} {w : Word} {i : Instr} (h : s.halted = false) (hw : s.fetch = .ok w)
    (hi : decodeWith s.params.opcodeMap w = .ok i) : step s = exec i s := by simp [step, h, hw, hi]

/-- A fetch in range reads the word at pc. -/
theorem fetch_inRange {s : State} (h : s.inRange s.pc .word = true) : s.fetch = .ok (s.mem.readWord s.pc) := by
  simp [State.fetch, h]

/-- A fetch out of range faults. -/
theorem fetch_outOfRange {s : State} (h : s.inRange s.pc .word = false) :
    s.fetch = .error (.addressOutOfRange s.pc .word s.pc) := by simp [State.fetch, h]

/-- `halted` is the complement of lying in the program (10_state.md R30). -/
theorem halted_iff (s : State) : s.halted = true ↔ ¬ InProgram s := by
  simp only [State.halted, InProgram, Bool.not_eq_true', Bool.and_eq_false_iff, decide_eq_false_iff_not]
  omega

/-- Inside the program the machine is not halted. -/
theorem not_halted {s : State} (h : InProgram s) : s.halted = false := by
  rw [Bool.eq_false_iff, Ne, halted_iff]
  exact fun hn => hn h

/-- The ways an engine step ends: completion, a completed instruction, a fault, a refusal; each with the state and the
report it gives. -/
theorem engineStep_cases {s t : State} {r : Report} (h : engineStep s = (t, r)) :
    (s.halted = true ∧ t = s.complete.recordCompleted ∧ r = .completed) ∨
    (s.halted = false ∧ ∃ u, step s = .next u ∧ t = u.recordExecuted (s.mem.readWord s.pc) ∧ r = .executed t.snapshot) ∨
    (∃ f, step s = .fault f ∧ t = s.recordFault f ∧ r = .faulted f) ∨
    (∃ x, step s = .refused x ∧ r = .refused x) := by
  unfold engineStep at h
  cases hs : step s with
  | next u =>
    rw [hs] at h
    cases hh : s.halted with
    | true =>
      rw [step_of_halted hh] at hs
      cases hs
      simp only [hh, if_true, Prod.mk.injEq] at h
      exact .inl ⟨rfl, h.1.symm, h.2.symm⟩
    | false =>
      simp only [hh, Bool.false_eq_true, if_false, Prod.mk.injEq] at h
      obtain ⟨rfl, rfl⟩ := h
      exact .inr (.inl ⟨rfl, u, rfl, rfl, rfl⟩)
  | fault f =>
    rw [hs] at h
    cases h
    exact .inr (.inr (.inl ⟨f, rfl, rfl, rfl⟩))
  | refused x =>
    rw [hs] at h
    cases h
    exact .inr (.inr (.inr ⟨x, rfl, rfl⟩))

end Sys2Proof.Machine
end

