-- ==== Sys2Proof/Certificates/Slice0/Obligations.lean ====
section
/-! DEFINITION. The statements for the provers. Each docstring names the rules of spec/ it formalises; a clause that rests
on a choice of the model names the log entry. -/

open Sys2Proof Sys2Proof.Machine

/-! ## Encoding and decoding -/

/-- Words written out from the tables of 30_encoding.md decode to the instruction they stand for, one or more per
family (95_test_vectors.md L2-A, L2-C to L2-F), and three absent MIPS words are rejected by name. The numbers are the
default `OPCODE_MAP` of R9 (log 1). -/
def Obligations.WordsOfTheTablesDecode : Prop :=
  decode 0x01095020 = .ok (.add 10 8 9) ∧ decode 0x000950C0 = .ok (.sll 10 9 3) ∧ decode 0x03E00008 = .ok (.jr 31) ∧
  decode 0x2108FFFF = .ok (.addi 8 8 0xFFFF) ∧ decode 0x35098000 = .ok (.ori 9 8 0x8000) ∧
  decode 0x8FA90000 = .ok (.lw 9 29 0) ∧ decode 0xA5090004 = .ok (.sh 9 8 4) ∧
  decode 0x1109FFFE = .ok (.beq 8 9 0xFFFE) ∧ decode 0x08000004 = .ok (.j 4) ∧ decode 0x0FFFFFFF = .ok (.jal 0x3FFFFFF) ∧
  decode 0x0000000C = .error (.unknownFunct 0x0C) ∧ decode 0x3C010001 = .error (.unknownOpcode 0x0F) ∧
  decode 0x24000000 = .error (.unknownOpcode 0x09)

/-- R97 for every opcode map that gives each instruction one encoding of its own, the default among them: decoding the
encoding of an instruction gives it back, with every operand at every value. -/
def Obligations.DecodeOfEncodeIsTheInstruction : Prop :=
  (∀ m : OpcodeMap, m.wellFormed = true → ∀ i : Instr, decodeWith m (encodeWith m i) = .ok i) ∧
  defaultOpcodeMap.wellFormed = true ∧ ∀ i : Instr, decode (encode i) = .ok i

/-- The other direction (R90, R96): a word that decodes to `i` is the encoding of `i` on every bit `i` uses. That the
encoding is 0 on the bits `i` ignores (R93, the spec's own decision D8) is log 16 (DEDUCED, from the syntax table of
R287). -/
def Obligations.EncodeOfDecodeIsTheWordOnUsedBits : Prop :=
  ∀ (m : OpcodeMap) (w : Word) (i : Instr), decodeWith m w = .ok i → encodeWith m i = w &&& usedBits i

/-- R91 for every opcode map: a word decodes to an instruction exactly when it is not an `unknown` word of that map;
and under the default map (log 1) with the numbers of R88 and R89 written out. -/
def Obligations.ExactlyTheTableWordsDecode : Prop :=
  (∀ (m : OpcodeMap) (w : Word), (∃ i : Instr, decodeWith m w = .ok i) ↔ ¬ unknownUnder m w) ∧
  ∀ w : Word, (∃ i : Instr, decode w = .ok i) ↔ ¬ unknownWord w

/-- R93 (the spec's own decision D8; log 16): a word whose ignored fields are cleared decodes to the same instruction,
and executes alike on the units, where the ignored fields are wires that carry them. -/
def Obligations.IgnoredFieldsHaveNoEffect : Prop :=
  ∀ (m : OpcodeMap) (w : Word) (i : Instr), decodeWith m w = .ok i →
    decodeWith m (w &&& usedBits i) = .ok i ∧
    ∀ (s : State) (c : Control), (decoderOutputs m w).ctl = some c →
      (decoderOutputs m (w &&& usedBits i)).ctl = some c ∧
      datapathExec s (decoderOutputs m (w &&& usedBits i)) c = datapathExec s (decoderOutputs m w) c

/-- R12: the extensions, bit by bit. -/
def Obligations.ExtensionsReplicateOrClear : Prop :=
  (∀ (v : Half) (k : Nat), (sext16 v).getLsbD k = if k < 16 then v.getLsbD k else decide (k < 32) && v.getLsbD 15) ∧
  (∀ (v : Byte) (k : Nat), (sext8 v).getLsbD k = if k < 8 then v.getLsbD k else decide (k < 32) && v.getLsbD 7) ∧
  (∀ (v : Half) (k : Nat), (zext16 v).getLsbD k = (decide (k < 16) && v.getLsbD k))

/-! ## Units -/

/-- R137, which the spec marks as derived: the laws the ALU satisfies. -/
def Obligations.AluSatisfiesItsLaws : Prop :=
  (∀ (a b : Word) (sh : Shamt), aluResult .sub a b sh = aluResult .add (aluResult .add a (~~~b) sh) 1 sh) ∧
  (∀ (a : Word) (sh : Shamt), aluResult .add a 0 sh = a ∧ aluResult .sub a a sh = 0 ∧ aluResult .nor a 0 sh = ~~~a) ∧
  (∀ sh : Shamt, aluResult .sub 0x80000000 1 sh = 0x7FFFFFFF ∧ aluResult .add 0x7FFFFFFF 1 sh = 0x80000000 ∧
    aluResult .add 0xFFFFFFFF 1 sh = 0)

/-- R135: the set-less-than results as comparisons of the signed and unsigned values, 1 or 0, so bits 31..1 are 0. -/
def Obligations.AluComparesSignedAndUnsigned : Prop :=
  ∀ (a b : Word) (sh : Shamt),
    (aluResult .slt a b sh = if a.toInt < b.toInt then 1 else 0) ∧
    (aluResult .sltu a b sh = if a.toNat < b.toNat then 1 else 0) ∧
    (∀ k : Nat, 1 ≤ k → (aluResult .slt a b sh).getLsbD k = false ∧ (aluResult .sltu a b sh).getLsbD k = false)

/-- The machine of 40_units.md (decoder outputs, control table R127, ALU, PC unit, the step of R150) and the machine
of the instruction rules (41_r_alu.md to 44_control_transfer.md) take the same step in every state. The organisation
in units with these ports is the spec's own decision D13 (log 14); unused signals are log 15. -/
def Obligations.UnitsAndInstructionRulesTakeTheSameStep : Prop :=
  ∀ s : State, datapathStep s = step s

/-- R126 (marked derived), R152: the decoder's `is_ctl` is true exactly for j, jal, jr, beq and bne, so false for an
`unknown` word, and an instruction for which it is false goes on at `pc + 4` when it completes. -/
def Obligations.OnlyControlTransfersLeaveTheSequence : Prop :=
  (∀ (m : OpcodeMap) (w : Word), (decoderOutputs m w).isCtl = true ↔
    ∃ k ∈ ([.j .j, .j .jal, .r .jr, .i .beq, .i .bne] : List Mnemonic), (decoderOutputs m w).mnem = some k) ∧
  ∀ (m : OpcodeMap) (w : Word) (i : Instr) (s t : State), decodeWith m w = .ok i →
    (decoderOutputs m w).isCtl = false → exec i s = .next t → t.pc = s.pc + 4

/-! ## Registers -/

/-- R22: register 0 reads as 0, a write to it changes nothing, and it reads as 0 after every step. -/
def Obligations.RegisterZeroIsHardWired : Prop :=
  (∀ s : State, s.reg 0 = 0) ∧ (∀ (s : State) (v : Word), s.setReg 0 v = s) ∧
  (∀ s t : State, step s = .next t → t.reg 0 = 0)

/-- R23: an instruction writes no register but its destination, which jr, sw, sh, sb, beq, bne and j have not. -/
def Obligations.OnlyTheDestinationRegisterIsWritten : Prop :=
  ∀ (i : Instr) (s t : State), exec i s = .next t → ∀ r : RegIdx, destination i ≠ some r → t.reg r = s.reg r

/-! ## R-type instructions: encoding, result, frame -/

/-- R170, R171: add and sub, modulo 2^32 with no trap; shamt is ignored; a write to register 0 is discarded. The
numbers are the default `OPCODE_MAP` of R9 (log 1). -/
def Obligations.AddAndSubWrapAround : Prop :=
  RWordDecodes 0x20 (fun w => .add (rdField w) (rsField w) (rtField w)) ∧
  RWordDecodes 0x22 (fun w => .sub (rdField w) (rsField w) (rtField w)) ∧
  ∀ (s : State) (rd rs rt : RegIdx),
    WritesRegister (.add rd rs rt) s .r rd (BitVec.ofNat 32 ((s.reg rs).toNat + (s.reg rt).toNat)) ∧
    WritesRegister (.sub rd rs rt) s .r rd (BitVec.ofInt 32 ((s.reg rs).toNat - (s.reg rt).toNat : Int))

/-- R172 to R174: and, or and nor, bit by bit. The numbers are the default `OPCODE_MAP` of R9 (log 1). -/
def Obligations.LogicInstructionsActBitwise : Prop :=
  RWordDecodes 0x24 (fun w => .and (rdField w) (rsField w) (rtField w)) ∧
  RWordDecodes 0x25 (fun w => .or (rdField w) (rsField w) (rtField w)) ∧
  RWordDecodes 0x27 (fun w => .nor (rdField w) (rsField w) (rtField w)) ∧
  ∀ (s : State) (rd rs rt : RegIdx),
    WritesRegister (.and rd rs rt) s .r rd (s.reg rs &&& s.reg rt) ∧
    WritesRegister (.or rd rs rt) s .r rd (s.reg rs ||| s.reg rt) ∧
    WritesRegister (.nor rd rs rt) s .r rd (~~~(s.reg rs ||| s.reg rt))

/-- R175, R176: the logical shifts by a constant, as multiplication and division by a power of two. The numbers are
the default `OPCODE_MAP` of R9 (log 1). -/
def Obligations.ShiftsAreLogical : Prop :=
  RWordDecodes 0x00 (fun w => .sll (rdField w) (rtField w) (shamtField w)) ∧
  RWordDecodes 0x02 (fun w => .srl (rdField w) (rtField w) (shamtField w)) ∧
  ∀ (s : State) (rd rt : RegIdx) (sa : Shamt),
    WritesRegister (.sll rd rt sa) s .r rd (BitVec.ofNat 32 ((s.reg rt).toNat * 2 ^ sa.toNat)) ∧
    WritesRegister (.srl rd rt sa) s .r rd (BitVec.ofNat 32 ((s.reg rt).toNat / 2 ^ sa.toNat))

/-- R177, R178: slt compares signed values, sltu unsigned ones. The numbers are the default `OPCODE_MAP` of R9 (log
1). -/
def Obligations.SetLessThanWritesOneOrZero : Prop :=
  RWordDecodes 0x2A (fun w => .slt (rdField w) (rsField w) (rtField w)) ∧
  RWordDecodes 0x2B (fun w => .sltu (rdField w) (rsField w) (rtField w)) ∧
  ∀ (s : State) (rd rs rt : RegIdx),
    WritesRegister (.slt rd rs rt) s .r rd (if (s.reg rs).toInt < (s.reg rt).toInt then 1 else 0) ∧
    WritesRegister (.sltu rd rs rt) s .r rd (if (s.reg rs).toNat < (s.reg rt).toNat then 1 else 0)

/-! ## I-type arithmetic -/

/-- R200: addi adds the sign-extended immediate modulo 2^32 with no trap. The numbers are the default `OPCODE_MAP` of
R9 (log 1). -/
def Obligations.AddImmediateIsSigned : Prop :=
  OpWordDecodes 0x08 (fun w => .addi (rtField w) (rsField w) (immField w)) ∧
  ∀ (s : State) (rt rs : RegIdx) (imm : Imm),
    WritesRegister (.addi rt rs imm) s .i rt (BitVec.ofInt 32 ((s.reg rs).toInt + imm.toInt))

/-- R201, R202: andi and ori use the zero-extended immediate. The numbers are the default `OPCODE_MAP` of R9 (log 1). -/
def Obligations.LogicImmediatesAreZeroExtended : Prop :=
  OpWordDecodes 0x0C (fun w => .andi (rtField w) (rsField w) (immField w)) ∧
  OpWordDecodes 0x0D (fun w => .ori (rtField w) (rsField w) (immField w)) ∧
  ∀ (s : State) (rt rs : RegIdx) (imm : Imm),
    WritesRegister (.andi rt rs imm) s .i rt (s.reg rs &&& BitVec.ofNat 32 imm.toNat) ∧
    WritesRegister (.ori rt rs imm) s .i rt (s.reg rs ||| BitVec.ofNat 32 imm.toNat)

/-- R203, R204: slti compares with the signed immediate; sltiu sign-extends the immediate and compares unsigned. The
numbers are the default `OPCODE_MAP` of R9 (log 1). -/
def Obligations.CompareImmediatesSignExtend : Prop :=
  OpWordDecodes 0x0A (fun w => .slti (rtField w) (rsField w) (immField w)) ∧
  OpWordDecodes 0x0B (fun w => .sltiu (rtField w) (rsField w) (immField w)) ∧
  ∀ (s : State) (rt rs : RegIdx) (imm : Imm),
    WritesRegister (.slti rt rs imm) s .i rt (if (s.reg rs).toInt < imm.toInt then 1 else 0) ∧
    WritesRegister (.sltiu rt rs imm) s .i rt
      (if (s.reg rs).toNat < (if imm.toNat < 2 ^ 15 then imm.toNat else imm.toNat + (2 ^ 32 - 2 ^ 16)) then 1 else 0)

/-! ## Loads and stores -/

/-- R220 (decision D4 for alignment): the effective address is the base plus the signed offset, modulo 2^32. -/
def Obligations.EffectiveAddressIsBasePlusSignedOffset : Prop :=
  ∀ (s : State) (rs : RegIdx) (imm : Imm), s.ea rs imm = BitVec.ofInt 32 ((s.reg rs).toNat + imm.toInt : Int)

/-- R222: lw composes four bytes, the lowest first, whatever the alignment; out of range it faults. The numbers are
the default `OPCODE_MAP` of R9 (log 1). -/
def Obligations.LoadWordReadsFourBytes : Prop :=
  OpWordDecodes 0x23 (fun w => .lw (rtField w) (rsField w) (immField w)) ∧
  ∀ (s : State) (rt rs : RegIdx) (imm : Imm),
    (InRange s (s.ea rs imm) 4 → WritesRegister (.lw rt rs imm) s .i rt
      (BitVec.ofNat 32 ((s.byteAt (s.ea rs imm)).toNat + 2 ^ 8 * (s.byteAt (s.ea rs imm + 1)).toNat +
        2 ^ 16 * (s.byteAt (s.ea rs imm + 2)).toNat + 2 ^ 24 * (s.byteAt (s.ea rs imm + 3)).toNat))) ∧
    (¬ InRange s (s.ea rs imm) 4 → exec (.lw rt rs imm) s = .fault (.addressOutOfRange (s.ea rs imm) .word s.pc))

/-- R223, R225: lh sign-extends and lhu zero-extends the two bytes; out of range they fault. The numbers are the
default `OPCODE_MAP` of R9 (log 1). -/
def Obligations.LoadHalfReadsTwoBytes : Prop :=
  OpWordDecodes 0x21 (fun w => .lh (rtField w) (rsField w) (immField w)) ∧
  OpWordDecodes 0x25 (fun w => .lhu (rtField w) (rsField w) (immField w)) ∧
  ∀ (s : State) (rt rs : RegIdx) (imm : Imm),
    (InRange s (s.ea rs imm) 2 →
      WritesRegister (.lh rt rs imm) s .i rt (BitVec.ofInt 32 (BitVec.ofNat 16
        ((s.byteAt (s.ea rs imm)).toNat + 2 ^ 8 * (s.byteAt (s.ea rs imm + 1)).toNat)).toInt) ∧
      WritesRegister (.lhu rt rs imm) s .i rt (BitVec.ofNat 32
        ((s.byteAt (s.ea rs imm)).toNat + 2 ^ 8 * (s.byteAt (s.ea rs imm + 1)).toNat))) ∧
    (¬ InRange s (s.ea rs imm) 2 →
      exec (.lh rt rs imm) s = .fault (.addressOutOfRange (s.ea rs imm) .half s.pc) ∧
      exec (.lhu rt rs imm) s = .fault (.addressOutOfRange (s.ea rs imm) .half s.pc))

/-- R224: lb sign-extends one byte; out of range it faults. The numbers are the default `OPCODE_MAP` of R9 (log 1). -/
def Obligations.LoadByteIsSigned : Prop :=
  OpWordDecodes 0x20 (fun w => .lb (rtField w) (rsField w) (immField w)) ∧
  ∀ (s : State) (rt rs : RegIdx) (imm : Imm),
    (InRange s (s.ea rs imm) 1 →
      WritesRegister (.lb rt rs imm) s .i rt (BitVec.ofInt 32 (s.byteAt (s.ea rs imm)).toInt)) ∧
    (¬ InRange s (s.ea rs imm) 1 → exec (.lb rt rs imm) s = .fault (.addressOutOfRange (s.ea rs imm) .byte s.pc))

/-- R226: sw stores the four bytes of `x[rt]` at the effective address, the lowest first, and no other byte; out of
range it faults and stores none. The numbers are the default `OPCODE_MAP` of R9 (log 1). -/
def Obligations.StoreWordWritesFourBytes : Prop :=
  OpWordDecodes 0x2B (fun w => .sw (rtField w) (rsField w) (immField w)) ∧
  ∀ (s : State) (rt rs : RegIdx) (imm : Imm), s.mem.wf →
    (InRange s (s.ea rs imm) 4 → StoresBytes (.sw rt rs imm) s (s.ea rs imm) 4 (s.reg rt)) ∧
    (¬ InRange s (s.ea rs imm) 4 → exec (.sw rt rs imm) s = .fault (.addressOutOfRange (s.ea rs imm) .word s.pc))

/-- R227: sh stores the two low bytes of `x[rt]`. The numbers are the default `OPCODE_MAP` of R9 (log 1). -/
def Obligations.StoreHalfWritesTwoBytes : Prop :=
  OpWordDecodes 0x29 (fun w => .sh (rtField w) (rsField w) (immField w)) ∧
  ∀ (s : State) (rt rs : RegIdx) (imm : Imm), s.mem.wf →
    (InRange s (s.ea rs imm) 2 → StoresBytes (.sh rt rs imm) s (s.ea rs imm) 2 (s.reg rt)) ∧
    (¬ InRange s (s.ea rs imm) 2 → exec (.sh rt rs imm) s = .fault (.addressOutOfRange (s.ea rs imm) .half s.pc))

/-- R228: sb stores the lowest byte of `x[rt]`. The numbers are the default `OPCODE_MAP` of R9 (log 1). -/
def Obligations.StoreByteWritesOneByte : Prop :=
  OpWordDecodes 0x28 (fun w => .sb (rtField w) (rsField w) (immField w)) ∧
  ∀ (s : State) (rt rs : RegIdx) (imm : Imm), s.mem.wf →
    (InRange s (s.ea rs imm) 1 → StoresBytes (.sb rt rs imm) s (s.ea rs imm) 1 (s.reg rt)) ∧
    (¬ InRange s (s.ea rs imm) 1 → exec (.sb rt rs imm) s = .fault (.addressOutOfRange (s.ea rs imm) .byte s.pc))

/-! ## Control transfer -/

/-- R250, R251, in the form of R252 (marked derived): a taken branch goes to `PC_before + 4 + offset*4` modulo 2^32, a
branch not taken to `PC_before + 4`; nothing else changes. The numbers are the default `OPCODE_MAP` of R9 (log 1). -/
def Obligations.BranchesGoToTheirOffsetOrOn : Prop :=
  OpWordDecodes 0x04 (fun w => .beq (rsField w) (rtField w) (immField w)) ∧
  OpWordDecodes 0x05 (fun w => .bne (rsField w) (rtField w) (immField w)) ∧
  ∀ (s : State) (rs rt : RegIdx) (imm : Imm),
    (s.reg rs = s.reg rt →
      GoesTo (.beq rs rt imm) s .i (BitVec.ofInt 32 (s.pc.toNat + 4 + imm.toInt * 4 : Int)) ∧
      GoesTo (.bne rs rt imm) s .i (s.pc + 4)) ∧
    (s.reg rs ≠ s.reg rt →
      GoesTo (.beq rs rt imm) s .i (s.pc + 4) ∧
      GoesTo (.bne rs rt imm) s .i (BitVec.ofInt 32 (s.pc.toNat + 4 + imm.toInt * 4 : Int)))

/-- R256: j keeps the top 4 bits of its own pc and replaces the rest with `target << 2`; nothing else changes. The
numbers are the default `OPCODE_MAP` of R9 (log 1). -/
def Obligations.JumpStaysInItsRegion : Prop :=
  OpWordDecodes 0x02 (fun w => .j (targetField w)) ∧
  ∀ (s : State) (target : Target),
    GoesTo (.j target) s .j (BitVec.ofNat 32 (s.pc.toNat / 2 ^ 28 * 2 ^ 28 + target.toNat * 4))

/-- R257: jal jumps as j and writes `pc + 4` of the jal itself to register 31; nothing else changes. The numbers are
the default `OPCODE_MAP` of R9 (log 1). -/
def Obligations.JumpAndLinkLinksTheNextWord : Prop :=
  OpWordDecodes 0x03 (fun w => .jal (targetField w)) ∧
  ∀ (s : State) (target : Target), ∃ t : State, exec (.jal target) s = .next t ∧
    t.reg 31 = s.pc + 4 ∧ RegsKeptBut 31 s t ∧
    t.pc = BitVec.ofNat 32 (s.pc.toNat / 2 ^ 28 * 2 ^ 28 + target.toNat * 4) ∧
    MemoryKept s t ∧ EngineKept s t ∧ Counted .j s t

/-- R258: jr goes to the register's value, unaligned values included, counts as R-type, and changes nothing else; rt,
rd and shamt are ignored. The numbers are the default `OPCODE_MAP` of R9 (log 1). -/
def Obligations.JumpRegisterGoesToTheRegister : Prop :=
  RWordDecodes 0x08 (fun w => .jr (rsField w)) ∧
  ∀ (s : State) (rs : RegIdx), GoesTo (.jr rs) s .r (s.reg rs)

/-- R260 (decision D4): from a pc that is a multiple of 4 every instruction but jr goes to one again, and an unaligned
pc is no fault but fetches the four bytes there. -/
def Obligations.AlignedPcStaysAlignedButForJr : Prop :=
  (∀ (i : Instr) (s t : State), (∀ rs : RegIdx, i ≠ .jr rs) → s.pc.toNat % 4 = 0 → exec i s = .next t →
    t.pc.toNat % 4 = 0) ∧
  (∀ s : State, InRange s s.pc 4 →
    s.fetch = .ok (wordOfBytes (s.byteAt s.pc) (s.byteAt (s.pc + 1)) (s.byteAt (s.pc + 2)) (s.byteAt (s.pc + 3))))

/-! ## Memory -/

/-- R55: `MemRead` of 1, 2 and 4 bytes is the little-endian composition, as numbers, whatever the memory policy. -/
def Obligations.ReadsComposeLittleEndian : Prop :=
  ∀ (m : Memory) (a : Word),
    m.readByte a = m.get a.toNat ∧
    (m.readHalf a).toNat = (m.readByte a).toNat + 2 ^ 8 * (m.readByte (a + 1)).toNat ∧
    (m.readWord a).toNat = (m.readByte a).toNat + 2 ^ 8 * (m.readByte (a + 1)).toNat +
      2 ^ 16 * (m.readByte (a + 2)).toNat + 2 ^ 24 * (m.readByte (a + 3)).toNat

/-- R56: a store leaves its bytes in order, and "the inverse composition recovers W exactly"; the canonical form of
memory is a premise that every step keeps. -/
def Obligations.WritesDecomposeLittleEndian : Prop :=
  ∀ (m : Memory) (a : Word), m.wf →
    (∀ (v : Word) (k : Nat), k < 4 →
      (m.writeWord a v).readByte (a + BitVec.ofNat 32 k) = BitVec.ofNat 8 (v.toNat / 2 ^ (8 * k))) ∧
    (∀ (v : Half) (k : Nat), k < 2 →
      (m.writeHalf a v).readByte (a + BitVec.ofNat 32 k) = BitVec.ofNat 8 (v.toNat / 2 ^ (8 * k))) ∧
    (∀ v : Byte, (m.writeByte a v).readByte a = v) ∧
    (∀ v : Word, (m.writeWord a v).readWord a = v) ∧
    (∀ v : Half, (m.writeHalf a v).readHalf a = v)

/-- R57 (marked derived): a byte load at `A+k` after a word store of `W` at `A` completes and reads byte `k` of `W`,
sign-extended (R224). -/
def Obligations.ByteLoadsSeeTheStoredWord : Prop :=
  ∀ (s t : State) (rt rs : RegIdx) (imm : Imm), s.mem.wf → exec (.sw rt rs imm) s = .next t →
    ∀ (k : Nat) (rd rb : RegIdx) (off : Imm), k < 4 → t.ea rb off = s.ea rs imm + BitVec.ofNat 32 k →
      ∃ u : State, exec (.lb rd rb off) t = .next u ∧
        u.reg rd = if rd = 0 then 0 else ((s.reg rt).extractLsb' (8 * k) 8).signExtend 32

/-- R67, R28 (decisions D20, D7): a stored word is what the next fetch at that address gives, and the store does not
change `code_end`. -/
def Obligations.FetchSeesTheStoredWord : Prop :=
  ∀ (s t : State) (rt rs : RegIdx) (imm : Imm), s.mem.wf → exec (.sw rt rs imm) s = .next t →
    ({ t with pc := s.ea rs imm } : State).fetch = .ok (s.reg rt) ∧ t.codeEnd = s.codeEnd

/-- R54 (decision D3): under `Sparse` no step raises `AddressOutOfRange`, and the byte addresses of a multi-byte
access are taken modulo 2^32. -/
def Obligations.SparseMemoryNeverFaultsAndWraps : Prop :=
  (∀ s : State, s.params.memPolicy = .sparse → ∀ (a : Word) (w : AccessWidth) (p : Word),
    step s ≠ .fault (.addressOutOfRange a w p)) ∧
  (∀ (m : Memory) (a : Word),
    m.readHalf a = m.get ((a.toNat + 1) % 2 ^ 32) ++ m.get a.toNat ∧
    m.readWord a = wordOfBytes (m.get a.toNat) (m.get ((a.toNat + 1) % 2 ^ 32)) (m.get ((a.toNat + 2) % 2 ^ 32))
      (m.get ((a.toNat + 3) % 2 ^ 32))) ∧
  (∀ (m : Memory) (a : Word),
    (∀ v : Half, m.writeHalf a v =
      (m.set a.toNat (v.extractLsb' 0 8)).set ((a.toNat + 1) % 2 ^ 32) (v.extractLsb' 8 8)) ∧
    (∀ v : Word, m.writeWord a v =
      (((m.set a.toNat (v.extractLsb' 0 8)).set ((a.toNat + 1) % 2 ^ 32) (v.extractLsb' 8 8)).set
        ((a.toNat + 2) % 2 ^ 32) (v.extractLsb' 16 8)).set ((a.toNat + 3) % 2 ^ 32) (v.extractLsb' 24 8)))

/-- R52: an instruction that is no load and no store neither reads nor writes memory: with another memory it does the
same to everything else and keeps that memory; and whatever does not store, a load too, keeps every byte. -/
def Obligations.OnlyLoadsAndStoresReachMemory : Prop :=
  (∀ (i : Instr) (s : State) (m : Memory), dataAccess s i = none →
    ∃ t : State, exec i s = .next t ∧ t.mem = s.mem ∧ exec i { s with mem := m } = .next { t with mem := m }) ∧
  (∀ (i : Instr) (s t : State), isStore i = false → exec i s = .next t → MemoryKept s t)

/-! ## The step -/

/-- R150 (decisions D9, D13), R9: inside the program, when the four bytes at pc are in range and decode under the
machine's opcode map to an instruction, the step is the execution of that instruction and nothing more. -/
def Obligations.StepRunsTheDecodedInstruction : Prop :=
  ∀ (s : State) (i : Instr) (rest : List Byte), InProgram s → InRange s s.pc 4 →
    decodeBytesWith s.params.opcodeMap
      [s.byteAt s.pc, s.byteAt (s.pc + 1), s.byteAt (s.pc + 2), s.byteAt (s.pc + 3)] = .ok (i, rest) →
    step s = exec i s

/-- R151 (decisions D5, D7): outside `[LOAD_BASE, code_end)` the engine's step changes nothing of the machine, goes
Idle and reports completion (no fault is pending after it: log 10); inside it never reports completion. -/
def Obligations.StepOutsideTheProgramCompletes : Prop :=
  (∀ s : State, ¬ InProgram s → engineStep s = ({ s with mode := .idle, pendingFault := none }, .completed)) ∧
  (∀ s : State, InProgram s → (engineStep s).2 ≠ .completed)

/-- R321 (decision D10): inside the program, with the fetch in range, the step raises `UnsupportedInstruction` with
the fetched word and the pc exactly when the word is unknown under the machine's opcode map. -/
def Obligations.UnsupportedExactlyOnUnknownWords : Prop :=
  ∀ s : State, InProgram s → InRange s s.pc 4 →
    (step s = .fault (.unsupportedInstruction (s.mem.readWord s.pc) s.pc) ↔
      unknownUnder s.params.opcodeMap (s.mem.readWord s.pc))

/-- R322, R327, R53 (decisions D2, D3, D10): inside the program a fetch out of range faults, an unknown word faults,
the data access of a load or store out of range faults, in this order and each with what it records; and every fault
of a step is one of these. -/
def Obligations.FaultsAreTheseThreeInOrder : Prop :=
  (∀ s : State, InProgram s →
    (¬ InRange s s.pc 4 → step s = .fault (.addressOutOfRange s.pc .word s.pc)) ∧
    (InRange s s.pc 4 → unknownUnder s.params.opcodeMap (s.mem.readWord s.pc) →
      step s = .fault (.unsupportedInstruction (s.mem.readWord s.pc) s.pc)) ∧
    (InRange s s.pc 4 → ∀ (i : Instr) (a : Word) (w : AccessWidth),
      decodeWith s.params.opcodeMap (s.mem.readWord s.pc) = .ok i → dataAccess s i = some (a, w) →
      ¬ InRange s a w.bytes → step s = .fault (.addressOutOfRange a w s.pc))) ∧
  (∀ (s : State) (f : Fault), step s = .fault f → InProgram s ∧
    ((¬ InRange s s.pc 4 ∧ f = .addressOutOfRange s.pc .word s.pc) ∨
     (InRange s s.pc 4 ∧ unknownUnder s.params.opcodeMap (s.mem.readWord s.pc) ∧
       f = .unsupportedInstruction (s.mem.readWord s.pc) s.pc) ∨
     (InRange s s.pc 4 ∧ ∃ (i : Instr) (a : Word) (w : AccessWidth),
       decodeWith s.params.opcodeMap (s.mem.readWord s.pc) = .ok i ∧ dataAccess s i = some (a, w) ∧
       ¬ InRange s a w.bytes ∧ f = .addressOutOfRange a w s.pc)))

/-- R325, R326, R153 (decisions D9, D12; log 8): a faulting step of the engine commits nothing, leaves the engine Idle
with the fault pending (log 10), and the next step raises the same fault. -/
def Obligations.FaultsCommitNothingAndRepeat : Prop :=
  ∀ (s t : State) (f : Fault), engineStep s = (t, .faulted f) →
    t = { s with mode := .idle, pendingFault := some f } ∧ engineStep t = (t, .faulted f)

/-- No step is refused, and an instruction completes in every state in which its data access, if it has one, is in
range (R222 to R228 name no other exception; the other instructions have none). -/
def Obligations.EveryInstructionCompletesInRange : Prop :=
  (∀ (s : State) (r : Refusal), step s ≠ .refused r) ∧
  ∀ (i : Instr) (s : State), (∀ (a : Word) (w : AccessWidth), dataAccess s i = some (a, w) → InRange s a w.bytes) →
    ∃ t : State, exec i s = .next t

/-- R28, R32: no step changes the program's end or the clock. That the parameters are in the state and no step changes
them is log 2, that none clears the pause request is log 7, that none changes what the engine remembers for the host
is log 10 and log 11, and that a completion is a next state in which only the mode may change is log 5 (all DESIGN
CHOICE); the mode changes only on completion (R29). -/
def Obligations.StepKeepsTheEngineState : Prop :=
  ∀ s t : State, step s = .next t →
    t.codeEnd = s.codeEnd ∧ t.clock = s.clock ∧ t.params = s.params ∧ t.pauseRequested = s.pauseRequested ∧
    t.pendingFault = s.pendingFault ∧ t.lastWord = s.lastWord ∧
    (t.mode = s.mode ∨ (¬ InProgram s ∧ t = { s with mode := .idle }))

/-- R29, R32, R344: the mode, the pause request, what the engine remembers for the host (log 10, log 11), the clock
and the statistics have no say in what an instruction computes: with others it ends alike, and leaves the same
registers, pc and memory. -/
def Obligations.EngineStateHasNoEffectOnResults : Prop :=
  ∀ (i : Instr) (s v : State), v.regs = s.regs → v.pc = s.pc → v.mem = s.mem → v.params = s.params →
    (∀ f : Fault, exec i s = .fault f ↔ exec i v = .fault f) ∧
    (∀ t : State, exec i s = .next t →
      ∃ u : State, exec i v = .next u ∧ u.regs = t.regs ∧ u.pc = t.pc ∧ u.mem = t.mem)

/-! ## Invariants -/

/-- Every step keeps the invariant: memory canonical and within its bound, register 0 zero, parameters and clock well
formed. -/
def Obligations.StepKeepsTheInvariant : Prop :=
  ∀ s t : State, Inv s → step s = .next t → Inv t

/-- The state after reset meets the invariant, whatever the OPEN clock values are. -/
def Obligations.ResetMeetsTheInvariant : Prop := Inv State.reset

/-- Every host command that is accepted keeps the invariant. -/
def Obligations.HostCommandsKeepTheInvariant : Prop :=
  ∀ (s t : State) (c : HostCommand) (r : Option Report), Inv s → hostCommand s c = .done t r → Inv t

/-! ## Statistics -/

/-- R340, R343 (decisions D15, D21): an instruction that completes adds 1 to the counter of its class and that class's
cycles to `cycles`; a completion or a fault of the engine changes no counter. -/
def Obligations.StatisticsCountCompletedInstructions : Prop :=
  (∀ (i : Instr) (s t : State), exec i s = .next t → Counted (instrClass i) s t) ∧
  (∀ (s t : State) (r : Report), engineStep s = (t, r) → (∀ v : Snapshot, r ≠ .executed v) → t.stats = s.stats)

/-- R340, R341 (decision D15): while the clock stays as it is, `cycles` stays the sum over the classes of count times
CPI; it is so at reset. -/
def Obligations.CyclesStayTheSum : Prop :=
  CyclesAreTheSum State.reset ∧ ∀ s t : State, CyclesAreTheSum s → step s = .next t → CyclesAreTheSum t

/-- R32, R341, R342, R350 (decision D15; log 4): the elapsed time is the sum over the current configuration; a
reconfiguration changes the clock alone, counters and cycles included in what it keeps. That it is accepted in either
mode, while Running too, is log 19 (DESIGN CHOICE). -/
def Obligations.ElapsedTimeUsesTheCurrentClock : Prop :=
  (∀ s : State, s.clock.wellFormed = true → s.elapsedTime * s.clock.clockHz =
    (s.stats.countR : Rat) * s.clock.cpiR + (s.stats.countI : Rat) * s.clock.cpiI + (s.stats.countJ : Rat) * s.clock.cpiJ) ∧
  (∀ (s : State) (c : ClockConfig), 0 < c.clockHz → hostCommand s (.reconfigure c) = .done { s with clock := c } none) ∧
  (∀ (s : State) (c : ClockConfig), ¬ 0 < c.clockHz → hostCommand s (.reconfigure c) = .refused .clockNotPositive)

/-! ## Reset, load and host -/

/-- R360 with no program loaded (log 9): every register and byte 0, pc at `LOAD_BASE` = 0, the program empty, the
engine Idle, the counters 0, the default parameters of R9 (log 1, log 2, log 3); nothing is said of the OPEN clock. -/
def Obligations.ResetState : Prop :=
  (∀ r : RegIdx, State.reset.reg r = 0) ∧ State.reset.pc = 0 ∧ (∀ a : Word, State.reset.byteAt a = 0) ∧
  State.reset.codeEnd = 0 ∧ State.reset.mode = .idle ∧ State.reset.stats = ⟨0, 0, 0, 0⟩ ∧
  State.reset.params = ⟨.fixed 4096, 0, defaultOpcodeMap⟩

/-- R361 (decisions D5, D6, D7, D24): a program load is refused under `Fixed` exactly when the program does not fit;
otherwise word `k` stands at `LOAD_BASE + 4k`, every other byte is 0, and registers, pc, code_end, counters and mode
are new; the clock is kept. That code_end is taken modulo 2^32 for every N is log 17 (DEDUCED), and that the load is
accepted in either mode is log 19 (DESIGN CHOICE). -/
def Obligations.ProgramLoadInstallsTheProgram : Prop :=
  ∀ (s : State) (ws : List Word),
    (∀ cap : Nat, s.params.memPolicy = .fixed cap → cap < s.params.loadBase.toNat + 4 * ws.length →
      hostCommand s (.load ws) = .refused .programTooLarge) ∧
    (InRange s s.params.loadBase (4 * ws.length) →
      ∃ t : State, hostCommand s (.load ws) = .done t none ∧
        (4 * ws.length ≤ 2 ^ 32 →
          (∀ (k : Nat) (hk : k < ws.length),
            t.mem.readWord (s.params.loadBase + BitVec.ofNat 32 (4 * k)) = ws[k]) ∧
          (∀ a : Word, ¬ inAccess s.params.loadBase (4 * ws.length) a → t.byteAt a = 0)) ∧
        (∀ r : RegIdx, t.reg r = 0) ∧ t.pc = s.params.loadBase ∧
        t.codeEnd = s.params.loadBase + BitVec.ofNat 32 (4 * ws.length) ∧ t.stats = ⟨0, 0, 0, 0⟩ ∧ t.mode = .idle ∧
        t.clock = s.clock ∧ t.params = s.params)

/-- R29, R354: Start takes Idle to Running; a pause request is observed between cycles and takes Running to Idle with
no step; without one a cycle while Running is a step; completion and faults leave the engine Idle; a single step is
valid only from Idle and returns to Idle; the mode does not change what a step reports. The pause flag is log 7; that
Pause while Idle and Start while Running are turned away is log 22 (both DESIGN CHOICE). -/
def Obligations.EngineModeTransitions : Prop :=
  (∀ s : State, s.mode = .idle →
    hostCommand s .start = .done { s with mode := .running, pauseRequested := false } none ∧
    hostCommand s .pause = .refused .notRunning ∧ runCycle s = (s, none) ∧
    ∃ (t : State) (r : Report), hostCommand s .singleStep = .done t (some r) ∧ engineStep s = (t, r) ∧ t.mode = .idle) ∧
  (∀ s : State, s.mode = .running →
    hostCommand s .start = .refused .notIdle ∧ hostCommand s .singleStep = .refused .notIdle ∧
    (∃ t : State, hostCommand s .pause = .done t none ∧ t.mode = .running ∧
      runCycle t = ({ s with mode := .idle, pauseRequested := false }, none)) ∧
    (s.pauseRequested = false → runCycle s = ((engineStep s).1, some (engineStep s).2))) ∧
  (∀ (s t : State) (r : Report), engineStep s = (t, r) → (∀ v : Snapshot, r ≠ .executed v) → t.mode = .idle) ∧
  (∀ (s : State) (md : Mode), (engineStep { s with mode := md }).2 = (engineStep s).2)

/-- R350 (decision D12): after a fault, and until it is answered, the host may skip, which adds 4 to the pc, or stop,
also when it has preset a register meanwhile; with no fault pending neither is accepted. That a pending fault is
remembered and answered, and that stop changes nothing else, is log 10 (DESIGN CHOICE). -/
def Obligations.SkipAfterFaultAddsFour : Prop :=
  (∀ (s t : State) (f : Fault), engineStep s = (t, .faulted f) →
    hostCommand t .skip = .done { t with pc := t.pc + 4, pendingFault := none } none ∧
    hostCommand t .stop = .done { t with pendingFault := none } none ∧
    ∀ (r : RegIdx) (v : Word), ∃ u : State, hostCommand t (.preset r v) = .done u none ∧
      hostCommand u .skip = .done { u with pc := u.pc + 4, pendingFault := none } none) ∧
  (∀ s : State, s.pendingFault = none →
    hostCommand s .skip = .refused .notFaulted ∧ hostCommand s .stop = .refused .notFaulted) ∧
  (∀ (s t : State) (r : Report), engineStep s = (t, r) → (∀ f : Fault, r ≠ .faulted f) → t.pendingFault = none)

/-- R351, R350, R344: after a completed step the host receives the snapshot of the new state: pc, all 32 registers,
memory, the executed word, the statistics, and the elapsed time of R341; reading the snapshot gives the same and
changes nothing. That the current instruction is the executed one, and that the time stands in the snapshot, is log 11
(DESIGN CHOICE). -/
def Obligations.SnapshotShowsTheCompletedStep : Prop :=
  ∀ (s t : State) (v : Snapshot), engineStep s = (t, .executed v) →
    v.pc = t.pc ∧ (v.regs.length = 32 ∧ ∀ r : RegIdx, v.regs[r.val]? = some (t.reg r)) ∧ v.mem = t.mem ∧
    v.current = some (s.mem.readWord s.pc) ∧ v.stats = t.stats ∧ v.time = t.elapsedTime ∧
    hostCommand t .readSnapshot = .snapshot v

/-! ## Assembler -/

/-- R298, R97: a text whose lines spell instructions in the syntax of R287 (register tokens R286, numbers R288,
literal operands R289 to R293; names and orders log 13, one blank after the mnemonic and a comma and a blank between
operands) assembles to the encodings of these instructions, which decode to them; and every word of any text that
assembles decodes to the instruction of its line, with the same operand fields. -/
def Obligations.AssembledWordsDecodeToTheirLines : Prop :=
  ∀ m : OpcodeMap, m.wellFormed = true →
    (∀ (lines : List Text) (is : List Instr), List.Forall₂ Spells lines is →
      assembleWith m lines = .ok (is.map (encodeWith m)) ∧
      (is.map (encodeWith m)).map (decodeWith m) = is.map Except.ok) ∧
    ∀ (lines : List Text) (ws : List Word), assembleWith m lines = .ok ws →
      ∃ is : List Instr, assembleInstrs lines = .ok is ∧ ws.map (decodeWith m) = is.map Except.ok

/-- R86, R290: a branch assembled for a label goes to that label when taken, within the reach of 16 bits. -/
def Obligations.BranchToALabelReachesIt : Prop :=
  ∀ address current : Nat, address < 2 ^ 32 → current < 2 ^ 32 → address % 4 = 0 → current % 4 = 0 →
    -32768 ≤ ((address : Int) - (current + 4)) / 4 → ((address : Int) - (current + 4)) / 4 ≤ 32767 →
    branchTarget (BitVec.ofNat 32 current) (branchOffset address current) = BitVec.ofNat 32 address

/-- R87, R291: a jump assembled for a label goes to that label from any pc of the same 256 MiB region. -/
def Obligations.JumpToALabelReachesIt : Prop :=
  ∀ (pc : Word) (address : Nat), address % 4 = 0 → address < 2 ^ 32 → pc.toNat / 2 ^ 28 = address / 2 ^ 28 →
    jumpTarget pc (jumpField address) = BitVec.ofNat 32 address

/-- R296: a text that does not assemble, and a program that does not fit, install nothing: the command is turned away
with no new state, and a text that assembles loads as its words do. -/
def Obligations.TextLoadsAsItsWordsOrNotAtAll : Prop :=
  ∀ (s : State) (lines : List Text),
    (∀ e : ParseError, assembleWith s.params.opcodeMap lines = .error e → hostCommand s (.loadText lines) = .refused (.parseError e)) ∧
    (∀ ws : List Word, assembleWith s.params.opcodeMap lines = .ok ws → hostCommand s (.loadText lines) = hostCommand s (.load ws))
end

