-- ==== Sys2Proof/Laws/Decode.lean ====
section
/-! SUPPORT. The small lemmas of the encoder's builders and of the decoder's field extraction: each field of a built word
is the field it was built from (30_encoding.md R96), and every mnemonic stands in its list. -/

namespace Sys2Proof

/-! ## Slices of a concatenation -/

/-- A slice of `x ++ y` that lies in `x`. -/
theorem slice_high {n m : Nat} (x : BitVec n) (y : BitVec m) {j k : Nat} (i : Nat) (h : j = m + i) :
    (x ++ y).extractLsb' j k = x.extractLsb' i k := by
  subst h
  apply BitVec.eq_of_getLsbD_eq
  intro p hp
  have h1 : ¬ m + i + p < m := by omega
  have h2 : m + i + p - m = i + p := by omega
  simp [BitVec.getLsbD_append, hp, h1, h2]

/-- A slice of `x ++ y` that lies in `y`. -/
theorem slice_low {n m : Nat} (x : BitVec n) (y : BitVec m) {j k : Nat} (h : j + k ≤ m) :
    (x ++ y).extractLsb' j k = y.extractLsb' j k := by
  apply BitVec.eq_of_getLsbD_eq
  intro p hp
  have h1 : j + p < m := by omega
  simp [BitVec.getLsbD_append, hp, h1]

/-! ## Fields of an R-type word -/

@[simp] theorem functField_buildR (rs rt rd : RegIdx) (sa : Shamt) (f : OpField) :
    functField (buildR rs rt rd sa f) = f := by
  unfold functField buildR
  rw [slice_low _ _ (by decide)]
  exact BitVec.extractLsb'_eq_self

@[simp] theorem shamtField_buildR (rs rt rd : RegIdx) (sa : Shamt) (f : OpField) :
    shamtField (buildR rs rt rd sa f) = sa := by
  unfold shamtField buildR
  rw [slice_high _ _ 0 (by decide), slice_low _ _ (by decide)]
  exact BitVec.extractLsb'_eq_self

@[simp] theorem rdField_buildR (rs rt rd : RegIdx) (sa : Shamt) (f : OpField) :
    rdField (buildR rs rt rd sa f) = rd := by
  unfold rdField buildR
  rw [slice_high _ _ 5 (by decide), slice_high _ _ 0 (by decide), slice_low _ _ (by decide), BitVec.extractLsb'_eq_self]

@[simp] theorem rtField_buildR (rs rt rd : RegIdx) (sa : Shamt) (f : OpField) :
    rtField (buildR rs rt rd sa f) = rt := by
  unfold rtField buildR
  rw [slice_high _ _ 10 (by decide), slice_high _ _ 5 (by decide), slice_high _ _ 0 (by decide),
    slice_low _ _ (by decide), BitVec.extractLsb'_eq_self]

@[simp] theorem rsField_buildR (rs rt rd : RegIdx) (sa : Shamt) (f : OpField) :
    rsField (buildR rs rt rd sa f) = rs := by
  unfold rsField buildR
  rw [slice_high _ _ 15 (by decide), slice_high _ _ 10 (by decide), slice_high _ _ 5 (by decide),
    slice_high _ _ 0 (by decide), slice_low _ _ (by decide), BitVec.extractLsb'_eq_self]

@[simp] theorem opcodeField_buildR (rs rt rd : RegIdx) (sa : Shamt) (f : OpField) :
    opcodeField (buildR rs rt rd sa f) = 0 := by
  unfold opcodeField buildR
  rw [slice_high _ _ 20 (by decide), slice_high _ _ 15 (by decide), slice_high _ _ 10 (by decide),
    slice_high _ _ 5 (by decide), slice_high _ _ 0 (by decide)]
  exact BitVec.extractLsb'_eq_self

/-! ## Fields of an I-type word -/

@[simp] theorem immField_buildI (op : OpField) (rs rt : RegIdx) (imm : Imm) : immField (buildI op rs rt imm) = imm := by
  unfold immField buildI
  rw [slice_low _ _ (by decide)]
  exact BitVec.extractLsb'_eq_self

@[simp] theorem rtField_buildI (op : OpField) (rs rt : RegIdx) (imm : Imm) : rtField (buildI op rs rt imm) = rt := by
  unfold rtField buildI
  rw [slice_high _ _ 0 (by decide), slice_low _ _ (by decide), BitVec.extractLsb'_eq_self]

@[simp] theorem rsField_buildI (op : OpField) (rs rt : RegIdx) (imm : Imm) : rsField (buildI op rs rt imm) = rs := by
  unfold rsField buildI
  rw [slice_high _ _ 5 (by decide), slice_high _ _ 0 (by decide), slice_low _ _ (by decide), BitVec.extractLsb'_eq_self]

@[simp] theorem opcodeField_buildI (op : OpField) (rs rt : RegIdx) (imm : Imm) :
    opcodeField (buildI op rs rt imm) = op := by
  unfold opcodeField buildI
  rw [slice_high _ _ 10 (by decide), slice_high _ _ 5 (by decide), slice_high _ _ 0 (by decide)]
  exact BitVec.extractLsb'_eq_self

/-! ## Fields of a J-type word -/

@[simp] theorem targetField_buildJ (op : OpField) (t : Target) : targetField (buildJ op t) = t := by
  unfold targetField buildJ
  rw [slice_low _ _ (by decide)]
  exact BitVec.extractLsb'_eq_self

@[simp] theorem opcodeField_buildJ (op : OpField) (t : Target) : opcodeField (buildJ op t) = op := by
  unfold opcodeField buildJ
  rw [slice_high _ _ 0 (by decide)]
  exact BitVec.extractLsb'_eq_self

/-! ## A word is built from its own fields (R96: the builders are the inverse of the extraction) -/

/-- An R-type word is built from its fields. -/
theorem buildR_fields (w : Word) (h : opcodeField w = 0) :
    buildR (rsField w) (rtField w) (rdField w) (shamtField w) (functField w) = w := by
  unfold buildR rsField rtField rdField shamtField functField
  have h0 : (0 : BitVec 6) = w.extractLsb' 26 6 := h.symm
  rw [h0]
  simp only [BitVec.ofFin_toFin]
  rw [BitVec.extractLsb'_append_extractLsb'_eq_extractLsb' (by decide),
    BitVec.extractLsb'_append_extractLsb'_eq_extractLsb' (by decide),
    BitVec.extractLsb'_append_extractLsb'_eq_extractLsb' (by decide),
    BitVec.extractLsb'_append_extractLsb'_eq_extractLsb' (by decide),
    BitVec.extractLsb'_append_extractLsb'_eq_extractLsb' (by decide)]
  exact BitVec.extractLsb'_eq_self

/-- An I-type word is built from its fields. -/
theorem buildI_fields (w : Word) : buildI (opcodeField w) (rsField w) (rtField w) (immField w) = w := by
  unfold buildI rsField rtField immField opcodeField
  simp only [BitVec.ofFin_toFin]
  rw [BitVec.extractLsb'_append_extractLsb'_eq_extractLsb' (by decide),
    BitVec.extractLsb'_append_extractLsb'_eq_extractLsb' (by decide),
    BitVec.extractLsb'_append_extractLsb'_eq_extractLsb' (by decide)]
  exact BitVec.extractLsb'_eq_self

/-- A J-type word is built from its fields. -/
theorem buildJ_fields (w : Word) : buildJ (opcodeField w) (targetField w) = w := by
  unfold buildJ targetField opcodeField
  rw [BitVec.extractLsb'_append_extractLsb'_eq_extractLsb' (by decide)]
  exact BitVec.extractLsb'_eq_self

/-! ## The mnemonic lists are complete -/

theorem mem_allRMnems (k : RMnem) : k ∈ allRMnems := by cases k <;> decide

theorem mem_allIMnems (k : IMnem) : k ∈ allIMnems := by cases k <;> decide

theorem mem_allJMnems (k : JMnem) : k ∈ allJMnems := by cases k <;> decide

/-- A row looked up in the funct table has that funct (R89). -/
theorem functOf_of_rMnem {m : OpcodeMap} {f : OpField} {k : RMnem} (h : m.rMnem f = some k) : m.functOf k = f := by
  simpa using List.find?_some h

/-- A row looked up among the I-type opcodes has that opcode (R88). -/
theorem iOpcodeOf_of_iMnem {m : OpcodeMap} {op : OpField} {k : IMnem} (h : m.iMnem op = some k) :
    m.iOpcodeOf k = op := by
  simpa using List.find?_some h

/-- A row looked up among the J-type opcodes has that opcode (R88). -/
theorem jOpcodeOf_of_jMnem {m : OpcodeMap} {op : OpField} {k : JMnem} (h : m.jMnem op = some k) :
    m.jOpcodeOf k = op := by
  simpa using List.find?_some h

end Sys2Proof
end

