-- ==== Sys2Proof/Laws/PerInstr.lean ====
section
/-! SUPPORT. Facts about every instruction as syntax, one lemma per constructor. `ClassIsFormat`: the format that the
opcode of an instruction's word selects (30_encoding.md R81) is the class the statistics count it in (60_exceptions.md
R340, 92_eei_decisions.md D21). -/

namespace Sys2Proof.Laws.ClassIsFormat

open Sys2Proof Sys2Proof.Machine

/-- The format of the encoded word is the instruction's class. -/
def Statement (i : Instr) : Prop := formatOf (opcodeField (encode i)) = instrClass i

/-- The statement from the opcode of the encoded word. -/
theorem of_opcode {i : Instr} {op : OpField} (h : opcodeField (encode i) = op) (hf : formatOf op = instrClass i) :
    Statement i := by
  rw [Statement, h, hf]

theorem add (rd rs rt : RegIdx) : Statement (.add rd rs rt) :=
  of_opcode (opcodeField_buildR _ _ _ _ _) rfl

theorem sub (rd rs rt : RegIdx) : Statement (.sub rd rs rt) :=
  of_opcode (opcodeField_buildR _ _ _ _ _) rfl

theorem and (rd rs rt : RegIdx) : Statement (.and rd rs rt) :=
  of_opcode (opcodeField_buildR _ _ _ _ _) rfl

theorem or (rd rs rt : RegIdx) : Statement (.or rd rs rt) :=
  of_opcode (opcodeField_buildR _ _ _ _ _) rfl

theorem nor (rd rs rt : RegIdx) : Statement (.nor rd rs rt) :=
  of_opcode (opcodeField_buildR _ _ _ _ _) rfl

theorem sll (rd rt : RegIdx) (sa : Shamt) : Statement (.sll rd rt sa) :=
  of_opcode (opcodeField_buildR _ _ _ _ _) rfl

theorem srl (rd rt : RegIdx) (sa : Shamt) : Statement (.srl rd rt sa) :=
  of_opcode (opcodeField_buildR _ _ _ _ _) rfl

theorem slt (rd rs rt : RegIdx) : Statement (.slt rd rs rt) :=
  of_opcode (opcodeField_buildR _ _ _ _ _) rfl

theorem sltu (rd rs rt : RegIdx) : Statement (.sltu rd rs rt) :=
  of_opcode (opcodeField_buildR _ _ _ _ _) rfl

theorem jr (rs : RegIdx) : Statement (.jr rs) :=
  of_opcode (opcodeField_buildR _ _ _ _ _) rfl

theorem addi (rt rs : RegIdx) (imm : Imm) : Statement (.addi rt rs imm) :=
  of_opcode (opcodeField_buildI _ _ _ _) rfl

theorem andi (rt rs : RegIdx) (imm : Imm) : Statement (.andi rt rs imm) :=
  of_opcode (opcodeField_buildI _ _ _ _) rfl

theorem ori (rt rs : RegIdx) (imm : Imm) : Statement (.ori rt rs imm) :=
  of_opcode (opcodeField_buildI _ _ _ _) rfl

theorem slti (rt rs : RegIdx) (imm : Imm) : Statement (.slti rt rs imm) :=
  of_opcode (opcodeField_buildI _ _ _ _) rfl

theorem sltiu (rt rs : RegIdx) (imm : Imm) : Statement (.sltiu rt rs imm) :=
  of_opcode (opcodeField_buildI _ _ _ _) rfl

theorem lw (rt rs : RegIdx) (imm : Imm) : Statement (.lw rt rs imm) :=
  of_opcode (opcodeField_buildI _ _ _ _) rfl

theorem lh (rt rs : RegIdx) (imm : Imm) : Statement (.lh rt rs imm) :=
  of_opcode (opcodeField_buildI _ _ _ _) rfl

theorem lb (rt rs : RegIdx) (imm : Imm) : Statement (.lb rt rs imm) :=
  of_opcode (opcodeField_buildI _ _ _ _) rfl

theorem lhu (rt rs : RegIdx) (imm : Imm) : Statement (.lhu rt rs imm) :=
  of_opcode (opcodeField_buildI _ _ _ _) rfl

theorem sw (rt rs : RegIdx) (imm : Imm) : Statement (.sw rt rs imm) :=
  of_opcode (opcodeField_buildI _ _ _ _) rfl

theorem sh (rt rs : RegIdx) (imm : Imm) : Statement (.sh rt rs imm) :=
  of_opcode (opcodeField_buildI _ _ _ _) rfl

theorem sb (rt rs : RegIdx) (imm : Imm) : Statement (.sb rt rs imm) :=
  of_opcode (opcodeField_buildI _ _ _ _) rfl

theorem beq (rs rt : RegIdx) (imm : Imm) : Statement (.beq rs rt imm) :=
  of_opcode (opcodeField_buildI _ _ _ _) rfl

theorem bne (rs rt : RegIdx) (imm : Imm) : Statement (.bne rs rt imm) :=
  of_opcode (opcodeField_buildI _ _ _ _) rfl

theorem j (t : Target) : Statement (.j t) :=
  of_opcode (opcodeField_buildJ _ _) rfl

theorem jal (t : Target) : Statement (.jal t) :=
  of_opcode (opcodeField_buildJ _ _) rfl

end Sys2Proof.Laws.ClassIsFormat
end

