-- ==== Sys2Proof/Tests/Slice0.lean ====
section
/-! SUPPORT. Tests: the well-formedness checks and what each refuses; every constructor's word written out bit by bit
from 30_encoding.md R82 to R89; one step of every instruction with the values of 95_test_vectors.md; faults, completion,
host commands, the assembler; and for every obligation with hypotheses a concrete case that meets them. Expected values
come from spec/ (the vector is named where it has a name), never from the model. -/

namespace Sys2Proof.Machine.Tests

/-! ## Helpers -/

/-- The clock of the illustrative configuration of 95_test_vectors.md L2-H. -/
def clock123 : ClockConfig := { clockHz := 1000, cpiR := 1, cpiI := 2, cpiJ := 3 }

/-- The state after reset with that clock. -/
def base : State := { State.reset with clock := clock123 }

/-- `base` with the data of 43_load_store.md: bytes 0x100 .. 0x103 and `$t0 = 0x100`. -/
def dataBase : State := { base with mem := [(0x100, 0x11), (0x101, 0x22), (0x102, 0x83), (0x103, 0xF4)] }.setReg 8 0x100

/-- Two presets of `$t0` and `$t1`. -/
def preset (t0 t1 : Word) : State := (base.setReg 8 t0).setReg 9 t1

/-- One step of a word placed where the state fetches next. -/
def run (s : State) (w : Nat) : Result := step (s.withFetchWord 32 w)

/-- `$t0 = 0xFFC`, the last word of the default memory. -/
def edge : State := base.setReg 8 0xFFC

/-- A view of the next state, if there is one. -/
def after {α : Type} (r : Result) (view : State → α) : Option α :=
  match r with
  | .next t => some (view t)
  | .fault _ => none
  | .refused _ => none

/-- The fault, if there is one. -/
def faultOf (r : Result) : Option Fault :=
  match r with
  | .next _ => none
  | .fault f => some f
  | .refused _ => none

/-- The state after a host command, if it is accepted. -/
def answerState (a : HostAnswer) : Option State :=
  match a with
  | .done s _ => some s
  | .snapshot _ => none
  | .refused _ => none

/-! ## Well-formedness: what each check accepts and refuses -/

theorem test_default_map_wellFormed : defaultOpcodeMap.wellFormed = true := by decide

/-- Another map is well formed too: j and jal exchanged (92_eei_decisions.md D1 leaves the pairing to a parameter). -/
theorem test_exchanged_jumps_wellFormed :
    ({ defaultOpcodeMap with opJ := 3, opJal := 2 } : OpcodeMap).wellFormed = true := by decide

theorem test_equal_functs_refused : ({ defaultOpcodeMap with fnSub := 0x20 } : OpcodeMap).functsDistinct = false := by decide

theorem test_equal_i_opcodes_refused :
    ({ defaultOpcodeMap with opLh := 0x23 } : OpcodeMap).iOpcodesDistinct = false := by decide

theorem test_equal_j_opcodes_refused : ({ defaultOpcodeMap with opJal := 2 } : OpcodeMap).jOpcodesDistinct = false := by decide

theorem test_i_opcode_in_r_format_refused :
    ({ defaultOpcodeMap with opAddi := 0 } : OpcodeMap).iOpcodesInFormat = false := by decide

theorem test_i_opcode_in_j_format_refused :
    ({ defaultOpcodeMap with opAddi := 3 } : OpcodeMap).iOpcodesInFormat = false := by decide

theorem test_j_opcode_in_i_format_refused :
    ({ defaultOpcodeMap with opJ := 8 } : OpcodeMap).jOpcodesInFormat = false := by decide

theorem test_ill_formed_map_refused : ({ defaultOpcodeMap with fnSub := 0x20 } : OpcodeMap).wellFormed = false := by decide

theorem test_default_params_wellFormed : Config.params.wellFormed = true := by decide

theorem test_capacity_past_address_space_refused :
    (MemPolicy.fixed (2 ^ 32 + 1)).wellFormed = false ∧
    ({ Config.params with memPolicy := .fixed (2 ^ 32 + 1) } : Params).wellFormed = false := by decide

theorem test_params_with_ill_formed_map_refused :
    ({ Config.params with opcodeMap := { defaultOpcodeMap with fnSub := 0x20 } } : Params).wellFormed = false := by decide

theorem test_clock_wellFormed : clock123.wellFormed = true := by decide

theorem test_zero_frequency_refused : ({ clock123 with clockHz := 0 } : ClockConfig).wellFormed = false := by decide

theorem test_negative_frequency_refused : ({ clock123 with clockHz := -1 } : ClockConfig).wellFormed = false := by decide

/-- R361 at its boundary: 1024 words fill the 4096 bytes, 1025 do not fit. -/
theorem test_program_size_boundary :
    Config.params.fits 1024 = true ∧ Config.params.fits 1025 = false := by decide

/-! ## Decoding: every constructor's word, field by field (R82 to R84, R88, R89) -/

theorem test_decode_r_alu :
    decode 0b000000_01000_01001_01010_00000_100000 = .ok (.add 10 8 9) ∧
    decode 0b000000_01000_01001_01010_00000_100010 = .ok (.sub 10 8 9) ∧
    decode 0b000000_01000_01001_01010_00000_100100 = .ok (.and 10 8 9) ∧
    decode 0b000000_01000_01001_01010_00000_100101 = .ok (.or 10 8 9) ∧
    decode 0b000000_01000_01001_01010_00000_100111 = .ok (.nor 10 8 9) ∧
    decode 0b000000_00000_01001_01010_00100_000000 = .ok (.sll 10 9 4) ∧
    decode 0b000000_00000_01001_01010_00100_000010 = .ok (.srl 10 9 4) ∧
    decode 0b000000_01000_01001_01010_00000_101010 = .ok (.slt 10 8 9) ∧
    decode 0b000000_01000_01001_01010_00000_101011 = .ok (.sltu 10 8 9) := by decide

theorem test_decode_i_alu :
    decode 0b001000_01000_01001_1111111111111111 = .ok (.addi 9 8 0xFFFF) ∧
    decode 0b001100_01000_01001_0000000011111111 = .ok (.andi 9 8 0x00FF) ∧
    decode 0b001101_01000_01001_1000000000000000 = .ok (.ori 9 8 0x8000) ∧
    decode 0b001010_01000_01001_1111111111111111 = .ok (.slti 9 8 0xFFFF) ∧
    decode 0b001011_01000_01001_1111111111111111 = .ok (.sltiu 9 8 0xFFFF) := by decide

theorem test_decode_load_store :
    decode 0b100011_01000_01001_0000000000000001 = .ok (.lw 9 8 1) ∧
    decode 0b100001_01000_01001_0000000000000010 = .ok (.lh 9 8 2) ∧
    decode 0b100000_01000_01001_0000000000000011 = .ok (.lb 9 8 3) ∧
    decode 0b100101_01000_01001_0000000000000010 = .ok (.lhu 9 8 2) ∧
    decode 0b101011_11101_01000_0000000000000000 = .ok (.sw 8 29 0) ∧
    decode 0b101001_01000_01001_0000000000000100 = .ok (.sh 9 8 4) ∧
    decode 0b101000_01000_01001_0000000000000101 = .ok (.sb 9 8 5) := by decide

theorem test_decode_control_transfer :
    decode 0b000100_01000_01001_1111111111111110 = .ok (.beq 8 9 0xFFFE) ∧
    decode 0b000101_01000_01001_0000000000000011 = .ok (.bne 8 9 3) ∧
    decode 0b000010_00000000000000000000000100 = .ok (.j 4) ∧
    decode 0b000011_11111111111111111111111111 = .ok (.jal 0x3FFFFFF) ∧
    decode 0b000000_11111_00000_00000_00000_001000 = .ok (.jr 31) := by decide

/-- R93: ignored fields set (the shamt of add is a vector of L2-A; the rs of sll; the rt, rd and shamt of jr). -/
theorem test_decode_ignores_unused_fields :
    decode 0x01095060 = .ok (.add 10 8 9) ∧
    decode 0b000000_11111_01001_01010_00100_000000 = .ok (.sll 10 9 4) ∧
    decode 0b000000_11111_10101_10101_10101_001000 = .ok (.jr 31) := by decide

/-- R91, R95: words of L2-A that are `unknown`, rejected by name. -/
theorem test_decode_rejects_by_name :
    decode 0x0000000C = .error (.unknownFunct 0x0C) ∧ decode 0xFC000000 = .error (.unknownOpcode 0x3F) ∧
    decode 0x04000000 = .error (.unknownOpcode 0x01) ∧ decode 0x3C010001 = .error (.unknownOpcode 0x0F) := by decide

/-- R57: the byte at the lowest address holds instruction bits 7..0; fewer than four bytes are no instruction. -/
theorem test_decode_bytes :
    decodeBytes [0x20, 0x50, 0x09, 0x01, 0xAA] = .ok (.add 10 8 9, [0xAA]) ∧
    decodeBytes [0x20, 0x50, 0x09] = .error .truncated := by decide

/-- The table's numbering: bit 0 is the least significant bit of the word. -/
theorem test_decode_table_word :
    decodeTableWord 32 0x01095020 = some (.add 10 8 9) ∧ decodeTableWord 32 0x0000000C = none := by decide

/-- Words of 95_test_vectors.md, encoded. -/
theorem test_encode :
    encode (.add 10 8 9) = 0x01095020 ∧ encode (.sll 10 9 4) = 0x00095100 ∧ encode (.jr 31) = 0x03E00008 ∧
    encode (.addi 8 8 0xFFFF) = 0x2108FFFF ∧ encode (.sw 8 29 0) = 0xAFA80000 ∧ encode (.beq 8 9 0xFFFE) = 0x1109FFFE ∧
    encode (.j 4) = 0x08000004 := by decide

/-- The decoder's outputs on a word of L2-A whose slices a format does not carry: `andi`, zero-extended. -/
theorem test_decoder_outputs :
    (decoderOutputs defaultOpcodeMap 0x310980FF).immExt = 0x000080FF ∧
    (decoderOutputs defaultOpcodeMap 0x310980FF).rd = 16 ∧
    (decoderOutputs defaultOpcodeMap 0x1109FFFE).immExt = 0xFFFFFFFE ∧
    (decoderOutputs defaultOpcodeMap 0xFC000000).mnem = none := by decide

/-! ## One step of every instruction (L2-C to L2-F): registers, then pc -/

theorem test_add_wraps :
    after (run (preset 0x7FFFFFFF 1) 0x01095020) (fun t => (t.reg 10, t.pc)) = some (0x80000000, 4) := by decide

theorem test_add_source_is_destination :
    after (run (preset 0x80000001 0) 0x01084020) (fun t => (t.reg 8, t.pc)) = some (0x00000002, 4) := by decide

theorem test_sub :
    after (run (preset 10 20) 0x01095022) (fun t => (t.reg 10, t.pc)) = some (0xFFFFFFF6, 4) := by decide

theorem test_and :
    after (run (preset 0x0F0F00FF 0x00FF0F0F) 0x01095024) (fun t => (t.reg 10, t.pc)) = some (0x000F000F, 4) := by decide

theorem test_or :
    after (run (preset 0x0F0F00FF 0x00FF0F0F) 0x01095025) (fun t => (t.reg 10, t.pc)) = some (0x0FFF0FFF, 4) := by decide

theorem test_nor :
    after (run (preset 0x0F0F00FF 0x00FF0F0F) 0x01095027) (fun t => (t.reg 10, t.pc)) = some (0xF000F000, 4) := by decide

theorem test_sll :
    after (run (preset 0 0x80000001) 0x00095100) (fun t => (t.reg 10, t.pc)) = some (0x00000010, 4) := by decide

theorem test_srl_is_logical :
    after (run (preset 0 0x80000001) 0x00095102) (fun t => (t.reg 10, t.pc)) = some (0x08000000, 4) := by decide

theorem test_slt_is_signed :
    after (run (preset 0xFFFFFFFF 1) 0x0109502A) (fun t => (t.reg 10, t.pc)) = some (1, 4) := by decide

theorem test_sltu_is_unsigned :
    after (run (preset 0xFFFFFFFF 1) 0x0109502B) (fun t => (t.reg 10, t.pc)) = some (0, 4) := by decide

/-- `add $zero, $t0, $t1`: nothing changed but pc and statistics. -/
theorem test_write_to_register_zero :
    after (run (preset 1 2) 0x01090020) (fun t => (t.reg 0, t.reg 8, t.reg 9, t.pc)) = some (0, 1, 2, 4) := by decide

theorem test_addi_minus_one :
    after (run (preset 5 0) 0x2108FFFF) (fun t => (t.reg 8, t.pc)) = some (4, 4) := by decide

theorem test_addi_most_negative :
    after (run base 0x20088000) (fun t => (t.reg 8, t.pc)) = some (0xFFFF8000, 4) := by decide

theorem test_andi_zero_extends :
    after (run (preset 0xFFFFFFFF 0) 0x310980FF) (fun t => (t.reg 9, t.pc)) = some (0x000080FF, 4) := by decide

theorem test_ori_zero_extends :
    after (run (preset 1 0) 0x35098000) (fun t => (t.reg 9, t.pc)) = some (0x00008001, 4) := by decide

theorem test_slti :
    after (run (preset 0xFFFFFFFE 0) 0x2909FFFF) (fun t => (t.reg 9, t.pc)) = some (1, 4) := by decide

theorem test_sltiu_sign_extends :
    after (run (preset 0x80000000 0) 0x2D098000) (fun t => (t.reg 9, t.pc)) = some (1, 4) := by decide

theorem test_sltiu_equal :
    after (run (preset 0xFFFFFFFF 0) 0x2D09FFFF) (fun t => (t.reg 9, t.pc)) = some (0, 4) := by decide

theorem test_lw_unaligned :
    after (run dataBase 0x8D090001) (fun t => (t.reg 9, t.pc)) = some (0x00F48322, 4) := by decide

/-- `lw $t0, 0($t0)`: the old base is used for the address. -/
theorem test_lw_base_is_destination :
    after (run dataBase 0x8D080000) (fun t => (t.reg 8, t.pc)) = some (0xF4832211, 4) := by decide

theorem test_lh_sign_extends :
    after (run dataBase 0x85090002) (fun t => (t.reg 9, t.pc)) = some (0xFFFFF483, 4) := by decide

theorem test_lhu_zero_extends :
    after (run dataBase 0x95090002) (fun t => (t.reg 9, t.pc)) = some (0x0000F483, 4) := by decide

theorem test_lb_sign_extends :
    after (run dataBase 0x81090003) (fun t => (t.reg 9, t.pc)) = some (0xFFFFFFF4, 4) := by decide

/-- L1-6: `sw $t0, 0($sp)` over the program's own first word. -/
theorem test_sw :
    after (run (preset 0xDEADBEEF 0) 0xAFA80000)
      (fun t => (t.byteAt 0, t.byteAt 1, t.byteAt 2, t.byteAt 3, t.byteAt 4, t.pc)) =
      some (0xEF, 0xBE, 0xAD, 0xDE, 0, 4) := by decide

theorem test_sh :
    after (run (dataBase.setReg 9 0xCAFEBABE) 0xA5090004)
      (fun t => (t.byteAt 0x103, t.byteAt 0x104, t.byteAt 0x105, t.byteAt 0x106, t.pc)) =
      some (0xF4, 0xBE, 0xBA, 0, 4) := by decide

theorem test_sb :
    after (run (dataBase.setReg 9 0xCAFEBABE) 0xA1090005)
      (fun t => (t.byteAt 0x104, t.byteAt 0x105, t.byteAt 0x106, t.pc)) = some (0, 0xBE, 0, 4) := by decide

theorem test_beq_taken_backwards :
    after (exec (.beq 8 9 0x8000) { preset 5 5 with pc := 0x100 }) (fun t => (t.pc, t.reg 8)) =
      some (0xFFFE0104, 5) := by decide

theorem test_beq_not_taken :
    after (exec (.beq 8 9 0x0010) { preset 5 6 with pc := 0x100 }) State.pc = some 0x104 := by decide

theorem test_bne_taken :
    after (exec (.bne 8 9 0xFFFE) { preset 5 6 with pc := 0x100 }) State.pc = some 0x000000FC := by decide

theorem test_bne_not_taken :
    after (exec (.bne 8 9 0xFFFE) { preset 5 5 with pc := 0x100 }) State.pc = some 0x104 := by decide

theorem test_j_keeps_top_bits :
    after (exec (.j 0x3FFFFFF) { base with pc := 0x30000008 }) State.pc = some 0x3FFFFFFC := by decide

/-- The top bits are those of the j's own pc, not of `pc + 4`. -/
theorem test_j_uses_its_own_pc :
    after (exec (.j 1) { base with pc := 0x0FFFFFFC }) State.pc = some 0x00000004 := by decide

theorem test_jal_links :
    after (exec (.jal 4) { base with pc := 8 }) (fun t => (t.pc, t.reg 31)) = some (0x10, 0x0C) := by decide

theorem test_jal_link_wraps :
    after (exec (.jal 0) { base with pc := 0xFFFFFFFC }) (fun t => (t.pc, t.reg 31)) = some (0xF0000000, 0) := by decide

theorem test_jr_unaligned :
    after (exec (.jr 8) { preset 0x102 0 with pc := 0x20 }) State.pc = some 0x102 := by decide

/-- Classes and cycles (R340 with the illustrative CPIs 1, 2, 3): jr counts as R, beq as I, jal as J. -/
theorem test_statistics :
    after (exec (.jr 8) base) State.stats = some ⟨1, 0, 0, 1⟩ ∧
    after (exec (.beq 8 9 0) base) State.stats = some ⟨0, 1, 0, 2⟩ ∧
    after (exec (.jal 4) base) State.stats = some ⟨0, 0, 1, 3⟩ := by decide

/-- The same vectors through the units of 40_units.md (L2-B). -/
theorem test_alu_vectors :
    alu .add 0x80000000 0x80000000 0 = ⟨0, true⟩ ∧ alu .sub 0 1 0 = ⟨0xFFFFFFFF, false⟩ ∧
    aluResult .sll 0 0x12345678 8 = 0x34567800 ∧ aluResult .srl 0 0x80000000 31 = 1 ∧
    alu .slt 0x80000000 0x7FFFFFFF 0 = ⟨1, false⟩ ∧ alu .sltu 0x80000000 0x7FFFFFFF 0 = ⟨0, false⟩ ∧
    (alu .eq 0x1234 0x1234 0).eq = true ∧ (alu .eq 0 0x80000000 0).eq = false := by decide

/-! ## Faults and completion (L2-E, L2-G, P4, P5) -/

theorem test_unsupported_instruction :
    faultOf (run base 0x0000000C) = some (.unsupportedInstruction 0x0000000C 0) ∧
    faultOf (run base 0xFC000000) = some (.unsupportedInstruction 0xFC000000 0) := by decide

/-- `lw $t1, 0xFFC($zero)` is the last in-range word, `0xFFD` faults, and so does a store there, with nothing written. -/
theorem test_range_boundary :
    after (run base 0x8C090FFC) State.pc = some 4 ∧
    faultOf (run base 0x8C090FFD) = some (.addressOutOfRange 0xFFD .word 0) ∧
    faultOf (run base 0xAC09FFFC) = some (.addressOutOfRange 0xFFFFFFFC .word 0) ∧
    after (run base 0x80090FFF) State.pc = some 4 ∧
    faultOf (run base 0xA4090FFF) = some (.addressOutOfRange 0xFFF .half 0) := by decide

/-- A load into register 0 still faults (R221). -/
theorem test_load_into_register_zero_faults :
    faultOf (exec (.lw 0 0 0xFFD) base) = some (.addressOutOfRange 0xFFD .word 0) := by decide

/-- The fetch itself out of range: pc = 0xFFE inside a program that fills the memory. -/
theorem test_fetch_out_of_range :
    faultOf (step { base with pc := 0xFFE, codeEnd := 0x1000 }) = some (.addressOutOfRange 0xFFE .word 0xFFE) := by decide

/-- Under `Sparse` the store at 0xFFFFFFFC runs, and one at 0xFFFFFFFE wraps to address 0 (R54). -/
theorem test_sparse_wraps :
    after (exec (.sw 8 0 0xFFFE) ({ base with params := { base.params with memPolicy := .sparse } }.setReg 8 0x12345678))
      (fun t => (t.byteAt 0xFFFFFFFE, t.byteAt 0xFFFFFFFF, t.byteAt 0, t.byteAt 1)) =
      some (0x78, 0x56, 0x34, 0x12) := by decide

theorem test_completion :
    engineStep { base with mode := .running } = (base, .completed) := by decide

theorem test_engine_fault_is_idle :
    engineStep { base.withFetchWord 32 0x0000000C with mode := .running } =
      ((base.withFetchWord 32 0x0000000C).recordFault (.unsupportedInstruction 0x0000000C 0),
        .faulted (.unsupportedInstruction 0x0000000C 0)) := by decide

/-- R324: the fault codes. -/
theorem test_fault_codes :
    (Report.executed base.snapshot).faultCode = some 0 ∧ Report.completed.faultCode = some 0 ∧
    (Report.faulted (.unsupportedInstruction 0 0)).faultCode = some 1 ∧
    (Report.faulted (.addressOutOfRange 0 .byte 0)).faultCode = some 2 := by decide

/-! ## Memory -/

/-- The canonical form: writing the value an unlisted address reads as removes the entry. -/
theorem test_memory_is_canonical :
    Memory.set [(4, 7)] 4 0 = [] ∧ Memory.set [(4, 7)] 2 1 = [(2, 1), (4, 7)] ∧
    Memory.set [(4, 7)] 9 0 = [(4, 7)] := by decide

/-- L1-1. -/
theorem test_little_endian :
    (Memory.writeWord [] 0x40 0x12345678) = [(0x40, 0x78), (0x41, 0x56), (0x42, 0x34), (0x43, 0x12)] ∧
    (Memory.writeWord [] 0x40 0x12345678).readWord 0x40 = 0x12345678 ∧
    (Memory.writeWord [] 0x40 0x12345678).readByte 0x41 = 0x56 := by decide

/-! ## The host -/

/-- `withFetchWord` from reset: the word at pc, the program's end past it, and the next step runs it. -/
theorem test_with_fetch_word_runs_first :
    (State.reset.withFetchWord 32 0x2008000A).codeEnd = 4 ∧
    step (State.reset.withFetchWord 32 0x2008000A) =
      exec (.addi 8 0 10) (State.reset.withFetchWord 32 0x2008000A) := ⟨by decide, rfl⟩

/-- R361: a load zeroes the registers, installs the words and keeps the clock. -/
theorem test_program_load :
    (answerState (hostCommand (preset 1 2) (.load [0x2008000A, 0x01095020]))).map
      (fun t => (t.reg 8, t.pc, t.codeEnd, t.mem.readWord 4, t.mode)) = some (0, 0, 8, 0x01095020, .idle) := by decide

/-- After a fault the host may skip (R350, L2-G: pc + 4), also when a preset has removed its cause; before the faulting
step it may not, however the word at pc. -/
theorem test_skip :
    (answerState (hostCommand (engineStep (base.withFetchWord 32 0x0000000C)).1 .skip)).map State.pc = some 4 ∧
    (answerState (hostCommand ((engineStep (edge.withFetchWord 32 0x8D090001)).1.setReg 8 0) .skip)).map State.pc =
      some 4 ∧
    hostCommand (base.withFetchWord 32 0x0000000C) .skip = .refused .notFaulted := by decide

/-- A pause is observed between cycles (R354): the requested pause takes no step. -/
theorem test_pause :
    runCycle { base.withFetchWord 32 0x2008000A with mode := .running, pauseRequested := true } =
      (base.withFetchWord 32 0x2008000A, none) := by decide

/-- L2-H, run L1-5: 1 R and 2 I instructions take 5 cycles, 0.005 s at 1000 Hz, and 0.0025 s after a reconfiguration to
2000 Hz. -/
theorem test_elapsed_time :
    ({ base with stats := ⟨1, 2, 0, 5⟩ } : State).elapsedTime = 5 / 1000 ∧
    ({ base with stats := ⟨1, 2, 0, 5⟩, clock := { clock123 with clockHz := 2000 } } : State).elapsedTime = 25 / 10000 := by
  constructor <;> norm_num [State.elapsedTime, base, clock123]

/-- The snapshot after a completed step (R351) shows the new pc and registers and the executed word; before the first
step there is none; reading it gives what was reported (R350). -/
theorem test_snapshot :
    base.snapshot.current = none ∧
    ((engineStep ((preset 5 6).withFetchWord 32 0x01095020)).1.snapshot.regs[10]? = some 11) ∧
    ((engineStep ((preset 5 6).withFetchWord 32 0x01095020)).1.snapshot.current = some 0x01095020) ∧
    ((engineStep ((preset 5 6).withFetchWord 32 0x01095020)).1.snapshot.pc = 4) := by decide

/-- R9: under another opcode map (j and jal exchanged) the same word is the other instruction, in the step and in the
assembler. -/
theorem test_opcode_map_is_a_parameter :
    after (run { base with params := { base.params with opcodeMap := { defaultOpcodeMap with opJ := 3, opJal := 2 } } }
      0x08000004) (fun t => (t.pc, t.reg 31)) = some (0x10, 4) ∧
    assembleWith { defaultOpcodeMap with opJ := 3, opJal := 2 } ["j 4".toList] = .ok [0x0C000004] := by decide

/-- R126: `is_ctl` of a branch, of an add, of an unknown word. -/
theorem test_is_ctl :
    (decoderOutputs defaultOpcodeMap 0x1109FFFE).isCtl = true ∧ (decoderOutputs defaultOpcodeMap 0x01095020).isCtl = false ∧
    (decoderOutputs defaultOpcodeMap 0xFC000000).isCtl = false := by decide

/-! ## The assembler (45_assembler.md) -/

/-- L1-5. -/
theorem test_assemble_add_scenario :
    assembleText ["addi $t0, $zero, 10", "addi $t1, $zero, 20", "add $t2, $t0, $t1"] =
      .ok [0x2008000A, 0x20090014, 0x01095020] := by decide

/-- L1-6. -/
theorem test_assemble_store_load :
    assembleText ["sw $t0, 0($sp)", "lw $t1, 0($sp)"] = .ok [0xAFA80000, 0x8FA90000] := by decide

/-- L1-7, with a comment, a blank line and a label on a line of its own. -/
theorem test_assemble_labels :
    assembleText ["loop:  # here", "", "addi $t0,$t0,1", "beq $t0,$t1,loop"] = .ok [0x21080001, 0x1109FFFE] := by decide

/-- From P3: a forward jump to a label at 0x18 is target 6, here at 4; jr by name. -/
theorem test_assemble_jump :
    assembleText ["j end", "end: jr $ra"] = .ok [0x08000001, 0x03E00008] := by decide

/-- R289, R293: immediates keep their low 16 bits, shift amounts their low 5. -/
theorem test_assemble_truncates :
    assembleText ["addi $t0, $t0, 70000", "addi 8, 8, -1", "sll $t2, $t1, 36"] =
      .ok [0x21081170, 0x2108FFFF, 0x00095100] := by decide

/-- What is a `ParseError`: a pseudo-instruction, an unknown register, a missing offset, a missing label, a label defined
twice, a missing operand (R285, R286, R292, R294, R287). -/
theorem test_parse_errors :
    assembleText ["nop"] = .error (.unknownMnemonic "nop".toList) ∧
    assembleText ["jr $s8"] = .error (.badRegister "$s8".toList) ∧
    assembleText ["lw $t0, ($sp)"] = .error (.malformedAddress "lw $t0, ($sp)".toList) ∧
    assembleText ["j end"] = .error (.undefinedLabel "end".toList) ∧
    assembleText ["a:", "a: jr 1"] = .error (.duplicateLabel "a".toList) ∧
    assembleText ["add $t0, $t1"] = .error (.badOperands "add $t0, $t1".toList) := by decide

/-! ## Witnesses: a concrete case for the hypotheses of every obligation that has some

A name `test_witness_<x>` says which obligation it serves. The states are those of the helpers. -/

/-- The same machine with a `Sparse` memory. -/
def sparseBase : State := { base with params := { base.params with memPolicy := .sparse } }

theorem inRange_of_fixed {s : State} {a : Word} {n cap : Nat} (h : s.params.memPolicy = .fixed cap)
    (hn : a.toNat + n ≤ cap) : InRange s a n := by
  intro c hc
  rw [h] at hc
  cases hc
  exact hn

theorem not_inRange_of_fixed {s : State} {a : Word} {n cap : Nat} (h : s.params.memPolicy = .fixed cap)
    (hn : ¬ a.toNat + n ≤ cap) : ¬ InRange s a n := fun hr => hn (hr cap h)

theorem base_inv : Inv base := ⟨by decide, by decide, by decide, by decide, by decide⟩

theorem test_witness_DecodeOfEncode : ∃ m : OpcodeMap, m.wellFormed = true ∧ m ≠ defaultOpcodeMap :=
  ⟨{ defaultOpcodeMap with opJ := 3, opJal := 2 }, by decide, by decide⟩

theorem test_witness_EncodeOfDecode : decode 0x01095060 = .ok (.add 10 8 9) := by decide

theorem test_witness_IgnoredFields :
    decode 0x01095060 = .ok (.add 10 8 9) ∧ (decoderOutputs defaultOpcodeMap 0x01095060).ctl = some (rAluRow .add) := by
  decide

theorem test_witness_OnlyControlTransfers :
    decode 0x01095020 = .ok (.add 10 8 9) ∧ (decoderOutputs defaultOpcodeMap 0x01095020).isCtl = false ∧
    ∃ t, exec (.add 10 8 9) base = .next t := ⟨by decide, by decide, _, rfl⟩

theorem test_witness_RegisterZero : ∃ t, step (base.withFetchWord 32 0x01090020) = .next t := ⟨_, rfl⟩

/-- A register that is not the destination, an instruction with one and an instruction with none. -/
theorem test_witness_OnlyTheDestination :
    (∃ t, exec (.add 10 8 9) base = .next t) ∧ destination (.add 10 8 9) ≠ some 8 ∧
    (∃ t, exec (.jr 8) base = .next t) ∧ destination (.jr 8) ≠ some 8 := ⟨⟨_, rfl⟩, by decide, ⟨_, rfl⟩, by decide⟩

/-- The words of the R-type encoding clauses: opcode 0 and each funct. -/
theorem test_witness_RTypeWords :
    ([0x20, 0x22, 0x24, 0x25, 0x27, 0x00, 0x02, 0x2A, 0x2B, 0x08] : List (BitVec 6)).all
      (fun f => ((0x01095000#32 ||| f.setWidth 32).extractLsb' 26 6 == 0) &&
        ((0x01095000#32 ||| f.setWidth 32).extractLsb' 0 6 == f)) = true := by decide

/-- The words of the I-type and J-type encoding clauses: each opcode. -/
theorem test_witness_OpcodeWords :
    ([0x08, 0x0C, 0x0D, 0x0A, 0x0B, 0x23, 0x21, 0x25, 0x20, 0x2B, 0x29, 0x28, 0x04, 0x05, 0x02, 0x03] : List (BitVec 6)).all
      (fun f => ((f.setWidth 32 <<< 26 ||| 0x0109FFFF#32).extractLsb' 26 6 == f)) = true := by decide

/-- Loads and stores of 4, 2 and 1 bytes on both sides of the capacity bound 4096. -/
theorem test_witness_LoadStoreRanges :
    base.mem.wf ∧ edge.mem.wf ∧
    InRange edge (edge.ea 8 0) 4 ∧ ¬ InRange edge (edge.ea 8 1) 4 ∧
    InRange edge (edge.ea 8 2) 2 ∧ ¬ InRange edge (edge.ea 8 3) 2 ∧
    InRange edge (edge.ea 8 3) 1 ∧ ¬ InRange edge (edge.ea 8 4) 1 :=
  ⟨by decide, by decide, inRange_of_fixed rfl (by decide), not_inRange_of_fixed rfl (by decide),
    inRange_of_fixed rfl (by decide), not_inRange_of_fixed rfl (by decide),
    inRange_of_fixed rfl (by decide), not_inRange_of_fixed rfl (by decide)⟩

theorem test_witness_Branches :
    (preset 5 5).reg 8 = (preset 5 5).reg 9 ∧ (preset 5 6).reg 8 ≠ (preset 5 6).reg 9 := by decide

/-- The alignment clause (an instruction that is no jr, from pc 0) and the unaligned fetch (pc = 0xFFC - 1). -/
theorem test_witness_AlignedPc :
    (∀ rs : RegIdx, (.j 4 : Instr) ≠ .jr rs) ∧ base.pc.toNat % 4 = 0 ∧ (∃ t, exec (.j 4) base = .next t) ∧
    InRange { base with pc := 0xFFB } ({ base with pc := 0xFFB } : State).pc 4 :=
  ⟨by decide, by decide, ⟨_, rfl⟩, inRange_of_fixed rfl (by decide)⟩

theorem test_witness_WritesDecompose : (Memory.wf [(0x100, 0x11), (0x101, 0x22)]) ∧ 3 < 4 := by decide

/-- The last byte, `k = 3`, of a word stored at the last in-range address. -/
theorem test_witness_ByteLoads :
    edge.mem.wf ∧ ∃ t, exec (.sw 9 8 0) edge = .next t ∧ t.ea 8 3 = edge.ea 8 0 + BitVec.ofNat 32 3 :=
  ⟨by decide, _, rfl, by decide⟩

theorem test_witness_FetchSees : edge.mem.wf ∧ ∃ t, exec (.sw 9 8 0) edge = .next t := ⟨by decide, _, rfl⟩

theorem test_witness_Sparse : sparseBase.params.memPolicy = .sparse := rfl

/-- No data access; and a load, which does not store. -/
theorem test_witness_OnlyLoadsAndStores :
    dataAccess base (.add 10 8 9) = none ∧ isStore (.lw 9 8 0) = false ∧ ∃ t, exec (.lw 9 8 0) edge = .next t :=
  ⟨rfl, rfl, _, rfl⟩

/-- A program of one word at pc 0. -/
theorem test_witness_StepRuns :
    InProgram (base.withFetchWord 32 0x01095020) ∧ InRange (base.withFetchWord 32 0x01095020) 0 4 ∧
    decodeBytesWith (base.withFetchWord 32 0x01095020).params.opcodeMap [(base.withFetchWord 32 0x01095020).byteAt 0, (base.withFetchWord 32 0x01095020).byteAt 1,
      (base.withFetchWord 32 0x01095020).byteAt 2, (base.withFetchWord 32 0x01095020).byteAt 3] =
      .ok (.add 10 8 9, []) :=
  ⟨by unfold InProgram; decide, inRange_of_fixed rfl (by decide), by decide⟩

/-- A program at 4 .. 8: pc 3 is below it, pc 4 its first byte, pc 7 its last, pc 8 past it. -/
def program48 (pc : Word) : State :=
  { base with pc := pc, params := { base.params with loadBase := 4 }, codeEnd := 8 }

theorem test_witness_StepOutside :
    ¬ InProgram (program48 3) ∧ ¬ InProgram (program48 8) ∧ InProgram (program48 4) ∧ InProgram (program48 7) := by
  unfold InProgram; decide

/-- An unknown word of either kind and a known one; a J-type word that another map does not have. -/
theorem test_witness_Unsupported :
    unknownWord 0x0000000C ∧ unknownWord 0xFC000000 ∧ ¬ unknownWord 0x01095020 ∧
    unknownUnder defaultOpcodeMap 0x0000000C ∧ unknownUnder defaultOpcodeMap 0xFC000000 ∧
    ¬ unknownUnder defaultOpcodeMap 0x01095020 ∧ ¬ unknownUnder defaultOpcodeMap 0x08000004 ∧
    unknownUnder { defaultOpcodeMap with opJ := 3 } 0x08000004 ∧
    InProgram (base.withFetchWord 32 0x0000000C) ∧ InRange (base.withFetchWord 32 0x0000000C) 0 4 :=
  ⟨by unfold unknownWord; decide, by unfold unknownWord; decide, by unfold unknownWord; decide,
    by unfold unknownUnder; decide, by unfold unknownUnder; decide, by unfold unknownUnder; decide,
    by unfold unknownUnder; decide, by unfold unknownUnder; decide, by unfold InProgram; decide,
    inRange_of_fixed rfl (by decide)⟩

/-- The state of L2-G whose fetch is out of range, inside the program. -/
theorem test_witness_FetchOutOfRange :
    InProgram { base with pc := 0xFFE, codeEnd := 0x1000 } ∧ ¬ InRange { base with pc := 0xFFE, codeEnd := 0x1000 } 0xFFE 4 ∧
    InRange { base with pc := 0xFFC, codeEnd := 0x1000 } 0xFFC 4 :=
  ⟨by unfold InProgram; decide, not_inRange_of_fixed rfl (by decide), inRange_of_fixed rfl (by decide)⟩

/-- The data access of a fetched load, out of range. -/
theorem test_witness_DataOutOfRange :
    InProgram (base.withFetchWord 32 0x8C090FFD) ∧
    decodeWith (base.withFetchWord 32 0x8C090FFD).params.opcodeMap ((base.withFetchWord 32 0x8C090FFD).mem.readWord 0) =
      .ok (.lw 9 0 0xFFD) ∧
    dataAccess (base.withFetchWord 32 0x8C090FFD) (.lw 9 0 0xFFD) = some (0xFFD, .word) ∧
    ¬ InRange (base.withFetchWord 32 0x8C090FFD) 0xFFD 4 :=
  ⟨by unfold InProgram; decide, by decide, by decide, not_inRange_of_fixed rfl (by decide)⟩

/-- Each of the three faults. -/
theorem test_witness_Faults :
    step { base with pc := 0xFFE, codeEnd := 0x1000 } = .fault (.addressOutOfRange 0xFFE .word 0xFFE) ∧
    step (base.withFetchWord 32 0x0000000C) = .fault (.unsupportedInstruction 0x0000000C 0) ∧
    step (base.withFetchWord 32 0x8C090FFD) = .fault (.addressOutOfRange 0xFFD .word 0) := ⟨rfl, rfl, rfl⟩

theorem test_witness_FaultsRepeatAndSkip :
    engineStep (base.withFetchWord 32 0x8C090FFD) =
      ((base.withFetchWord 32 0x8C090FFD).recordFault (.addressOutOfRange 0xFFD .word 0),
        .faulted (.addressOutOfRange 0xFFD .word 0)) ∧
    base.pendingFault = none ∧ (engineStep base).2 = .completed := by decide

theorem test_witness_Snapshot : ∃ t v, engineStep (base.withFetchWord 32 0x01095020) = (t, .executed v) := ⟨_, _, rfl⟩

/-- An access in range, and an instruction with none. -/
theorem test_witness_Completes :
    dataAccess edge (.lw 9 8 0) = some (0xFFC, .word) ∧ InRange edge 0xFFC 4 ∧ dataAccess edge (.j 4) = none :=
  ⟨by decide, inRange_of_fixed rfl (by decide), rfl⟩

/-- A completed instruction and a completion of the run. -/
theorem test_witness_StepKeeps :
    (∃ t, step (base.withFetchWord 32 0x01095020) = .next t) ∧ ¬ InProgram base ∧ ∃ t, step base = .next t :=
  ⟨⟨_, rfl⟩, by unfold InProgram; decide, _, rfl⟩

theorem test_witness_EngineStateHasNoEffect :
    exec (.lw 9 0 0xFFD) base = .fault (.addressOutOfRange 0xFFD .word 0) ∧ (∃ t, exec (.lw 9 8 0) edge = .next t) ∧
    ({ edge with mode := .running, stats := ⟨1, 1, 1, 1⟩ } : State).regs = edge.regs := ⟨rfl, ⟨_, rfl⟩, rfl⟩

theorem test_witness_Invariant :
    Inv base ∧ (∃ t, step base = .next t) ∧ ∃ t, hostCommand base (.load [0x2008000A]) = .done t none :=
  ⟨base_inv, ⟨_, rfl⟩, _, rfl⟩

/-- A completed instruction; a completion and a fault, whose reports are no executed word. -/
theorem test_witness_Statistics :
    (∃ t, exec (.jal 4) base = .next t) ∧ (engineStep base).2 = .completed ∧
    (engineStep (base.withFetchWord 32 0x0000000C)).2 = .faulted (.unsupportedInstruction 0x0000000C 0) :=
  ⟨⟨_, rfl⟩, by decide, by decide⟩

theorem test_witness_Cycles :
    CyclesAreTheSum { base with stats := ⟨1, 2, 0, 5⟩ } ∧ ∃ t, step { base with stats := ⟨1, 2, 0, 5⟩ } = .next t :=
  ⟨rfl, _, rfl⟩

/-- A positive frequency and, at the boundary, zero. -/
theorem test_witness_ElapsedTime :
    base.clock.wellFormed = true ∧ 0 < clock123.clockHz ∧ ¬ 0 < ({ clock123 with clockHz := 0 } : ClockConfig).clockHz := by
  decide

/-- A program one word too long for a memory of 8 bytes, and the longest that fits. -/
theorem test_witness_ProgramLoad :
    (8 < (0 : Word).toNat + 4 * [0x2008000A, 0x20090014, 0x01095020].length) ∧
    InRange { base with params := { base.params with memPolicy := .fixed 8 } } 0 (4 * [0x2008000A, 0x20090014].length) ∧
    4 * [0x2008000A, 0x20090014].length ≤ 2 ^ 32 := ⟨by decide, inRange_of_fixed rfl (by decide), by decide⟩

theorem test_witness_EngineModes :
    base.mode = .idle ∧ ({ base with mode := .running } : State).mode = .running ∧
    ({ base with mode := .running } : State).pauseRequested = false ∧ (engineStep base).2 = .completed := by decide

/-- A line of each shape spells its instruction: names, an index, a negative and a hexadecimal number. -/
theorem test_witness_Spells :
    List.Forall₂ Spells
      ["add $t2, t0, 9".toList, "sll $t2, $t1, 4".toList, "addi $t0, $t0, -1".toList, "lw $t1, 0xffc($zero)".toList,
        "beq $t0, $t1, -2".toList, "j 4".toList, "jr $ra".toList]
      [.add 10 8 9, .sll 10 9 4, .addi 8 8 0xFFFF, .lw 9 0 0xFFC, .beq 8 9 0xFFFE, .j 4, .jr 31] := by
  have reg : ∀ (r : RegIdx) (name : String), (r.val, name) ∈ registerNameTable →
      SpellsRegister ('$' :: name.toList) r := fun r name h => ⟨name.toList, .inr rfl, .inr ⟨name, h, rfl⟩⟩
  refine .cons ⟨"$t2".toList, "t0".toList, "9".toList, reg 10 "t2" (by decide),
      ⟨"t0".toList, .inl rfl, .inr ⟨"t0", by decide, rfl⟩⟩, ⟨"9".toList, .inl rfl, .inl (by decide)⟩, by decide⟩
    (.cons ⟨"$t2".toList, "$t1".toList, "4".toList, 4, reg 10 "t2" (by decide), reg 9 "t1" (by decide),
      ⟨4, .inl ⟨rfl, .inl (by decide)⟩⟩, by decide, by decide⟩
    (.cons ⟨"$t0".toList, "$t0".toList, "-1".toList, -1, reg 8 "t0" (by decide), reg 8 "t0" (by decide),
      ⟨1, .inr ⟨rfl, by decide⟩⟩, by decide, by decide⟩
    (.cons ⟨"$t1".toList, "0xffc".toList, "$zero".toList, 0xFFC, reg 9 "t1" (by decide),
      ⟨0xFFC, .inl ⟨rfl, .inr (by decide)⟩⟩, reg 0 "zero" (by decide), by decide, by decide⟩
    (.cons ⟨"$t0".toList, "$t1".toList, "-2".toList, -2, reg 8 "t0" (by decide), reg 9 "t1" (by decide),
      ⟨2, .inr ⟨rfl, by decide⟩⟩, by decide, by decide⟩
    (.cons ⟨"4".toList, 4, ⟨4, .inl ⟨rfl, .inl (by decide)⟩⟩, by decide, by decide⟩
    (.cons ⟨"$ra".toList, reg 31 "ra" (by decide), by decide⟩ .nil))))))

theorem test_witness_AssembledWords : assembleWith defaultOpcodeMap ["jr $ra".toList] = .ok [0x03E00008] := by decide

theorem test_witness_TextErrors : assembleText ["jr $s8"] = .error (.badRegister "$s8".toList) := by decide

/-- L1-7: a branch at 4 to a label at 0; and the farthest forward branch the 16 bits reach. -/
theorem test_witness_BranchToALabel :
    -32768 ≤ (((0 : Nat) : Int) - (((4 : Nat) : Int) + 4)) / 4 ∧ (((0 : Nat) : Int) - (((4 : Nat) : Int) + 4)) / 4 ≤ 32767 ∧
    (((131072 : Nat) : Int) - (((0 : Nat) : Int) + 4)) / 4 = 32767 := by decide

/-- L1-10: a label at 0x18 from pc 0x0C, and the last word of the first region. -/
theorem test_witness_JumpToALabel :
    0x18 % 4 = 0 ∧ (0x0C : Word).toNat / 2 ^ 28 = 0x18 / 2 ^ 28 ∧ (0x0C : Word).toNat / 2 ^ 28 = 0x0FFFFFFC / 2 ^ 28 := by
  decide

end Sys2Proof.Machine.Tests
end

section
/-! Proofs for 00_scope.md: the sign and zero extensions of R12, bit by bit. -/

namespace Sys2Proof.Machine

/-- One rule for both sign extensions of R12: a value of `n + 1` bits keeps its own bits, and its top bit fills the rest
of the word. -/
theorem getLsbD_signExtend_word {n : Nat} (hn : n < 32) (v : BitVec (n + 1)) (k : Nat) :
    (v.signExtend 32).getLsbD k = if k < n + 1 then v.getLsbD k else decide (k < 32) && v.getLsbD n := by
  rw [BitVec.getLsbD_signExtend, BitVec.msb_eq_getLsbD_last, Nat.add_sub_cancel]
  by_cases hk : k < n + 1
  · have hword : k < 32 := by omega
    simp [hk, hword]
  · simp [hk]

theorem getLsbD_sext16 (v : Half) (k : Nat) :
    (sext16 v).getLsbD k = if k < 16 then v.getLsbD k else decide (k < 32) && v.getLsbD 15 :=
  getLsbD_signExtend_word (by decide) v k

theorem getLsbD_sext8 (v : Byte) (k : Nat) :
    (sext8 v).getLsbD k = if k < 8 then v.getLsbD k else decide (k < 32) && v.getLsbD 7 :=
  getLsbD_signExtend_word (by decide) v k

theorem getLsbD_zext16 (v : Half) (k : Nat) : (zext16 v).getLsbD k = (decide (k < 16) && v.getLsbD k) := by
  rw [zext16, BitVec.getLsbD_setWidth]
  by_cases hk : k < 16
  · have hword : k < 32 := by omega
    simp [hk, hword]
  · have hbit : v.getLsbD k = false := BitVec.getLsbD_of_ge v k (by omega)
    simp [hbit]

/-- Settles O6, from the bits of each of the three extensions. -/
theorem extensionsReplicateOrClear : Obligations.ExtensionsReplicateOrClear :=
  ⟨getLsbD_sext16, getLsbD_sext8, getLsbD_zext16⟩

end Sys2Proof.Machine
end

section
/-! Proofs for 10_state.md: the hard-wired register 0 of R22. -/

namespace Sys2Proof.Machine

/-- Settles O11. That it reads as 0 after every step needs no invariant of the step: `State.reg` answers 0 for register 0
in every state, so also in the one a step answers. -/
theorem registerZeroIsHardWired : Obligations.RegisterZeroIsHardWired :=
  ⟨State.reg_zero, State.setReg_zero, fun _ t _ => t.reg_zero⟩

end Sys2Proof.Machine
end

section
/-! Proofs for 20_memory.md: the little-endian composition of R55 and its inverse of R56. The laws of byte memory
(Laws/Memory.lean) say which byte a read finds; here the bytes become numbers. -/

namespace Sys2Proof.Machine

/-- Appending puts the first vector above the second: the composition of R55 as a number, one join at a time. -/
theorem toNat_append_eq_add {m n : Nat} (hi : BitVec m) (lo : BitVec n) :
    (hi ++ lo).toNat = lo.toNat + 2 ^ n * hi.toNat := by
  rw [BitVec.toNat_append, ← Nat.shiftLeft_add_eq_or_of_lt lo.isLt, Nat.shiftLeft_eq, Nat.mul_comm, Nat.add_comm]

theorem wordOfBytes_toNat (b0 b1 b2 b3 : Byte) :
    (wordOfBytes b0 b1 b2 b3).toNat =
      b0.toNat + 2 ^ 8 * b1.toNat + 2 ^ 16 * b2.toNat + 2 ^ 24 * b3.toNat := by
  simp only [wordOfBytes, toNat_append_eq_add]
  ring

/-- Settles O32: every wider read appends byte reads, and an append is a sum. -/
theorem readsComposeLittleEndian : Obligations.ReadsComposeLittleEndian :=
  fun _ _ => ⟨rfl, toNat_append_eq_add _ _, wordOfBytes_toNat _ _ _ _⟩

/-- The bits of a field as a number: the quotient by the field's weight, cut to its width. -/
theorem extractLsb'_eq_ofNat_div {n : Nat} (v : BitVec n) (start len : Nat) :
    v.extractLsb' start len = BitVec.ofNat len (v.toNat / 2 ^ start) := by
  rw [BitVec.extractLsb', Nat.shiftRight_eq_div_pow]

/-- Byte `k` of a stored word stands at `A + k` (R56). -/
theorem Memory.readByte_writeWord_add {m : Memory} (hm : m.wf) (a v : Word) {k : Nat} (hk : k < 4) :
    (m.writeWord a v).readByte (a + BitVec.ofNat 32 k) = v.extractLsb' (8 * k) 8 := by
  rw [Memory.readByte_writeWord hm]
  interval_cases k <;> simp

/-- Byte `k` of a stored halfword stands at `A + k` (R56). -/
theorem Memory.readByte_writeHalf_add {m : Memory} (hm : m.wf) (a : Word) (v : Half) {k : Nat} (hk : k < 2) :
    (m.writeHalf a v).readByte (a + BitVec.ofNat 32 k) = v.extractLsb' (8 * k) 8 := by
  rw [Memory.readByte_writeHalf hm]
  interval_cases k <;> simp

theorem Memory.readByte_writeByte_self {m : Memory} (hm : m.wf) (a : Word) (v : Byte) :
    (m.writeByte a v).readByte a = v := by
  rw [Memory.readByte_writeByte hm, if_pos rfl]

/-- Storing a halfword and reading it back gives it (R56). -/
theorem Memory.readHalf_writeHalf {m : Memory} (hm : m.wf) (a : Word) (v : Half) :
    (m.writeHalf a v).readHalf a = v := by
  have hlow : (m.writeHalf a v).readByte a = v.extractLsb' 0 8 := by
    simpa using Memory.readByte_writeHalf_add hm a v (k := 0) (by decide)
  have hhigh : (m.writeHalf a v).readByte (a + 1) = v.extractLsb' 8 8 :=
    Memory.readByte_writeHalf_add hm a v (k := 1) (by decide)
  rw [Memory.readHalf, hlow, hhigh, BitVec.extractLsb'_append_extractLsb'_eq_extractLsb' (by decide)]
  exact BitVec.extractLsb'_eq_self

/-- Settles O33: byte `k` of a store is field `8k+7 : 8k` of the value, and the fields appended in order are the value. -/
theorem writesDecomposeLittleEndian : Obligations.WritesDecomposeLittleEndian := fun _ a hm =>
  ⟨fun v _ hk => (Memory.readByte_writeWord_add hm a v hk).trans (extractLsb'_eq_ofNat_div v _ _),
   fun v _ hk => (Memory.readByte_writeHalf_add hm a v hk).trans (extractLsb'_eq_ofNat_div v _ _),
   Memory.readByte_writeByte_self hm a,
   Memory.readWord_writeWord hm a,
   Memory.readHalf_writeHalf hm a⟩

end Sys2Proof.Machine
end

section
/-! Proofs for 30_encoding.md: the round trip of R97, for every well-formed opcode map. A map that gives each row a number
of its own finds the row back from its number; with the field laws of Laws/Decode.lean each builder is then undone by
the decoder, once per format. -/

namespace Sys2Proof

/-! ## Looking a row up by its number -/

/-- A search by a key that no two elements of the list share finds the element the key belongs to. -/
theorem find?_key_eq_some {α β : Type} [BEq β] [LawfulBEq β] {key : α → β} {l : List α} (hl : (l.map key).Nodup)
    {a : α} (ha : a ∈ l) : l.find? (fun x => key x == key a) = some a := by
  have hfound : (l.find? fun x => key x == key a).isSome :=
    List.find?_isSome.mpr ⟨a, ha, beq_self_eq_true (key a)⟩
  obtain ⟨b, hb⟩ := Option.isSome_iff_exists.mp hfound
  have hkey : key b = key a := by simpa using List.find?_some hb
  rw [hb, List.inj_on_of_nodup_map hl (List.mem_of_find?_eq_some hb) ha hkey]

/-- What a well-formed map promises: distinct numbers within a format, and each opcode in its own format (R81). -/
theorem OpcodeMap.wellFormed_iff {m : OpcodeMap} : m.wellFormed = true ↔
    m.functs.Nodup ∧ m.iOpcodes.Nodup ∧ m.jOpcodes.Nodup ∧
    (∀ op ∈ m.iOpcodes, op ≠ 0 ∧ op ≠ 2 ∧ op ≠ 3) ∧ ∀ op ∈ m.jOpcodes, op = 2 ∨ op = 3 := by
  simp only [OpcodeMap.wellFormed, OpcodeMap.functsDistinct, OpcodeMap.iOpcodesDistinct, OpcodeMap.jOpcodesDistinct,
    OpcodeMap.iOpcodesInFormat, OpcodeMap.jOpcodesInFormat, Bool.and_eq_true, Bool.or_eq_true, decide_eq_true_eq,
    List.all_eq_true, bne_iff_ne, beq_iff_eq, and_assoc]

theorem OpcodeMap.functs_eq_map (m : OpcodeMap) : m.functs = allRMnems.map m.functOf := rfl

theorem OpcodeMap.iOpcodes_eq_map (m : OpcodeMap) : m.iOpcodes = allIMnems.map m.iOpcodeOf := rfl

theorem OpcodeMap.jOpcodes_eq_map (m : OpcodeMap) : m.jOpcodes = allJMnems.map m.jOpcodeOf := rfl

section
variable {m : OpcodeMap} (hm : m.wellFormed = true)
include hm

theorem rMnem_functOf (k : RMnem) : m.rMnem (m.functOf k) = some k := by
  obtain ⟨hfuncts, -⟩ := OpcodeMap.wellFormed_iff.mp hm
  exact find?_key_eq_some (m.functs_eq_map ▸ hfuncts) (mem_allRMnems k)

theorem iMnem_iOpcodeOf (k : IMnem) : m.iMnem (m.iOpcodeOf k) = some k := by
  obtain ⟨-, hiOpcodes, -⟩ := OpcodeMap.wellFormed_iff.mp hm
  exact find?_key_eq_some (m.iOpcodes_eq_map ▸ hiOpcodes) (mem_allIMnems k)

theorem jMnem_jOpcodeOf (k : JMnem) : m.jMnem (m.jOpcodeOf k) = some k := by
  obtain ⟨-, -, hjOpcodes, -⟩ := OpcodeMap.wellFormed_iff.mp hm
  exact find?_key_eq_some (m.jOpcodes_eq_map ▸ hjOpcodes) (mem_allJMnems k)

theorem formatOf_iOpcodeOf (k : IMnem) : formatOf (m.iOpcodeOf k) = .i := by
  obtain ⟨-, -, -, hformat, -⟩ := OpcodeMap.wellFormed_iff.mp hm
  obtain ⟨h0, h2, h3⟩ := hformat _ (m.iOpcodes_eq_map ▸ List.mem_map_of_mem (mem_allIMnems k))
  rw [formatOf, if_neg h0, if_neg (not_or_intro h2 h3)]

theorem formatOf_jOpcodeOf (k : JMnem) : formatOf (m.jOpcodeOf k) = .j := by
  obtain ⟨-, -, -, -, hformat⟩ := OpcodeMap.wellFormed_iff.mp hm
  rcases hformat _ (m.jOpcodes_eq_map ▸ List.mem_map_of_mem (mem_allJMnems k)) with h | h <;> rw [h] <;> rfl

/-! ## Decoding a built word, once per format (R96) -/

theorem decodeWith_buildR (k : RMnem) (rs rt rd : RegIdx) (sa : Shamt) :
    decodeWith m (buildR rs rt rd sa (m.functOf k)) = .ok (rInstr k rs rt rd sa) := by
  simp [decodeWith, decodedWith, formatOf, rMnem_functOf hm, instrOfDecoded]

theorem decodeWith_buildI (k : IMnem) (rs rt : RegIdx) (imm : Imm) :
    decodeWith m (buildI (m.iOpcodeOf k) rs rt imm) = .ok (iInstr k rs rt imm) := by
  simp [decodeWith, decodedWith, formatOf_iOpcodeOf hm, iMnem_iOpcodeOf hm, instrOfDecoded]

theorem decodeWith_buildJ (k : JMnem) (target : Target) :
    decodeWith m (buildJ (m.jOpcodeOf k) target) = .ok (jInstr k target) := by
  simp [decodeWith, decodedWith, formatOf_jOpcodeOf hm, jMnem_jOpcodeOf hm, instrOfDecoded]

/-! ## The round trip (R97) -/

/-- Every instruction's word is built by its format's builder from the fields it uses, the others 0. -/
theorem decodeWith_encodeWith : ∀ i : Instr, decodeWith m (encodeWith m i) = .ok i
  | .add _ _ _  => decodeWith_buildR hm .add _ _ _ _
  | .sub _ _ _  => decodeWith_buildR hm .sub _ _ _ _
  | .and _ _ _  => decodeWith_buildR hm .and _ _ _ _
  | .or _ _ _   => decodeWith_buildR hm .or _ _ _ _
  | .nor _ _ _  => decodeWith_buildR hm .nor _ _ _ _
  | .sll _ _ _  => decodeWith_buildR hm .sll _ _ _ _
  | .srl _ _ _  => decodeWith_buildR hm .srl _ _ _ _
  | .slt _ _ _  => decodeWith_buildR hm .slt _ _ _ _
  | .sltu _ _ _ => decodeWith_buildR hm .sltu _ _ _ _
  | .jr _       => decodeWith_buildR hm .jr _ _ _ _
  | .addi _ _ _  => decodeWith_buildI hm .addi _ _ _
  | .andi _ _ _  => decodeWith_buildI hm .andi _ _ _
  | .ori _ _ _   => decodeWith_buildI hm .ori _ _ _
  | .slti _ _ _  => decodeWith_buildI hm .slti _ _ _
  | .sltiu _ _ _ => decodeWith_buildI hm .sltiu _ _ _
  | .lw _ _ _  => decodeWith_buildI hm .lw _ _ _
  | .lh _ _ _  => decodeWith_buildI hm .lh _ _ _
  | .lb _ _ _  => decodeWith_buildI hm .lb _ _ _
  | .lhu _ _ _ => decodeWith_buildI hm .lhu _ _ _
  | .sw _ _ _  => decodeWith_buildI hm .sw _ _ _
  | .sh _ _ _  => decodeWith_buildI hm .sh _ _ _
  | .sb _ _ _  => decodeWith_buildI hm .sb _ _ _
  | .beq _ _ _ => decodeWith_buildI hm .beq _ _ _
  | .bne _ _ _ => decodeWith_buildI hm .bne _ _ _
  | .j _   => decodeWith_buildJ hm .j _
  | .jal _ => decodeWith_buildJ hm .jal _

end

theorem defaultOpcodeMap_wellFormed : defaultOpcodeMap.wellFormed = true := by decide

/-- Settles O2: the round trip of every well-formed map, and the default map is one. -/
theorem decodeOfEncodeIsTheInstruction : Obligations.DecodeOfEncodeIsTheInstruction :=
  ⟨fun _ hm => decodeWith_encodeWith hm, defaultOpcodeMap_wellFormed,
   decodeWith_encodeWith defaultOpcodeMap_wellFormed⟩

end Sys2Proof
end

section
/-! Proofs for 40_units.md: the set-less-than results of the ALU (R135). -/

namespace Sys2Proof.Machine

theorem aluResult_slt (a b : Word) (sh : Shamt) :
    aluResult .slt a b sh = if a.toInt < b.toInt then 1 else 0 := by
  simp only [aluResult, BitVec.slt_iff_toInt_lt]

theorem aluResult_sltu (a b : Word) (sh : Shamt) :
    aluResult .sltu a b sh = if a.toNat < b.toNat then 1 else 0 := by
  simp only [aluResult, BitVec.ult_iff_toNat_lt]

/-- A truth value written as a word, 1 or 0, has nothing in bits 31..1. -/
theorem getLsbD_ite_one_zero (p : Prop) [Decidable p] {k : Nat} (hk : 1 ≤ k) :
    (if p then 1 else 0 : Word).getLsbD k = false := by
  have hne : k ≠ 0 := by omega
  split
  · simp [BitVec.getLsbD_one, hne]
  · exact BitVec.getLsbD_zero

/-- Settles O8: both results are truth values of a comparison, which gives the upper bits too. -/
theorem aluComparesSignedAndUnsigned : Obligations.AluComparesSignedAndUnsigned := fun a b sh =>
  ⟨aluResult_slt a b sh, aluResult_sltu a b sh, fun _ hk =>
    ⟨aluResult_slt a b sh ▸ getLsbD_ite_one_zero _ hk, aluResult_sltu a b sh ▸ getLsbD_ite_one_zero _ hk⟩⟩

end Sys2Proof.Machine
end

section
/-! Proofs for 41_r_alu.md: encoding, result and frame of the R-type arithmetic (R170 to R178). The encodings are one
fact about a row of the funct table, the frames one fact about the writeback that every meaning ends in; what is left of
an instruction is that the word it writes is the rule's number. -/

namespace Sys2Proof.Machine

/-- A word of opcode 0 and a row's funct is built from its own fields, so it decodes to the row's instruction of them
(R89, R90). -/
theorem rWordDecodes_functOf (k : RMnem) : RWordDecodes (defaultOpcodeMap.functOf k)
    (fun w => rInstr k (rsField w) (rtField w) (rdField w) (shamtField w)) := by
  intro w hopcode hfunct
  have hbuilt : buildR (rsField w) (rtField w) (rdField w) (shamtField w) (defaultOpcodeMap.functOf k) = w :=
    hfunct ▸ buildR_fields w hopcode
  have hdecoded := decodeWith_buildR defaultOpcodeMap_wellFormed k (rsField w) (rtField w) (rdField w) (shamtField w)
  rwa [hbuilt] at hdecoded

/-- An instruction whose meaning is a register writeback completes, writes its register and keeps the rest; register 0
as a destination discards the value (`writeback_spec`). -/
theorem writesRegister_of_writeback {i : Instr} {s : State} {k : Format} {d : RegIdx} {v w : Word}
    (hexec : exec i s = s.writeback k d v) (hvalue : v = w) : WritesRegister i s k d w := by
  obtain ⟨t, hnext, hreg, hregs, hpc, hmem, hengine, hcounted⟩ := writeback_spec s k d v
  exact ⟨t, hexec.trans hnext, hvalue ▸ hreg, hregs, hpc, memoryKept_of_eq hmem, hengine, hcounted⟩

/-! ## Word operations as numbers -/

/-- The difference may be negative, so it is a word through `BitVec.ofInt` (R171). -/
theorem sub_eq_ofInt (a b : Word) : a - b = BitVec.ofInt 32 (a.toNat - b.toNat : Int) := by
  rw [Int.sub_eq_add_neg, BitVec.ofInt_add, BitVec.ofInt_neg, BitVec.sub_eq_add_neg]
  simp

theorem shiftLeft_eq_ofNat_mul (a : Word) (n : Nat) : a <<< n = BitVec.ofNat 32 (a.toNat * 2 ^ n) := by
  rw [← Nat.shiftLeft_eq]
  rfl

/-- A quotient of a word is a word, so nothing is cut off (R176). -/
theorem ushiftRight_eq_ofNat_div (a : Word) (n : Nat) : a >>> n = BitVec.ofNat 32 (a.toNat / 2 ^ n) := by
  rw [← Nat.shiftRight_eq_div_pow, ← BitVec.toNat_ushiftRight, BitVec.ofNat_toNat, BitVec.setWidth_eq]

/-! ## The instructions -/

/-- Settles O13: the word of the sum, and that of the difference, negative or not. -/
theorem addAndSubWrapAround : Obligations.AddAndSubWrapAround :=
  ⟨rWordDecodes_functOf .add, rWordDecodes_functOf .sub, fun _ _ _ _ =>
    ⟨writesRegister_of_writeback rfl (BitVec.add_def ..), writesRegister_of_writeback rfl (sub_eq_ofInt ..)⟩⟩

/-- Settles O14: the values written back are the rules' own bitwise operations. -/
theorem logicInstructionsActBitwise : Obligations.LogicInstructionsActBitwise :=
  ⟨rWordDecodes_functOf .and, rWordDecodes_functOf .or, rWordDecodes_functOf .nor, fun _ _ _ _ =>
    ⟨writesRegister_of_writeback rfl rfl, writesRegister_of_writeback rfl rfl, writesRegister_of_writeback rfl rfl⟩⟩

/-- Settles O15: a shift by `shamt` places is a product with, or a quotient by, `2 ^ shamt`. -/
theorem shiftsAreLogical : Obligations.ShiftsAreLogical :=
  ⟨rWordDecodes_functOf .sll, rWordDecodes_functOf .srl, fun _ _ _ _ =>
    ⟨writesRegister_of_writeback rfl (shiftLeft_eq_ofNat_mul ..),
     writesRegister_of_writeback rfl (ushiftRight_eq_ofNat_div ..)⟩⟩

/-- Settles O16: the values written back are the truth values of the rules' comparisons. -/
theorem setLessThanWritesOneOrZero : Obligations.SetLessThanWritesOneOrZero :=
  ⟨rWordDecodes_functOf .slt, rWordDecodes_functOf .sltu, fun _ _ _ _ =>
    ⟨writesRegister_of_writeback rfl rfl, writesRegister_of_writeback rfl rfl⟩⟩

end Sys2Proof.Machine
end

section
/-! Proofs for 42_i_alu.md: encoding, result and frame of the I-type arithmetic (R200 to R204). As for the R-type, the
encodings are one fact about a row of the opcode table and the frames are `writesRegister_of_writeback`; what is left is
which number an extended immediate is. -/

namespace Sys2Proof.Machine

/-- A word of an I-type row's opcode is built from its own fields, so it decodes to the row's instruction of them
(R88, R90). -/
theorem opWordDecodes_iOpcodeOf (k : IMnem) : OpWordDecodes (defaultOpcodeMap.iOpcodeOf k)
    (fun w => iInstr k (rsField w) (rtField w) (immField w)) := by
  intro w hopcode
  have hbuilt : buildI (defaultOpcodeMap.iOpcodeOf k) (rsField w) (rtField w) (immField w) = w :=
    hopcode ▸ buildI_fields w
  have hdecoded := decodeWith_buildI defaultOpcodeMap_wellFormed k (rsField w) (rtField w) (immField w)
  rwa [hbuilt] at hdecoded

/-! ## Extended immediates as numbers (R12) -/

theorem zext16_eq_ofNat (v : Half) : zext16 v = BitVec.ofNat 32 v.toNat := (BitVec.ofNat_toNat 32 v).symm

/-- Sign extension keeps the signed value. -/
theorem sext16_toInt (v : Half) : (sext16 v).toInt = v.toInt := BitVec.toInt_signExtend_of_le (by decide)

/-- Read as unsigned, sign extension leaves the lower half of the immediates where it is and moves the upper half to the
top of the words. -/
theorem sext16_toNat (v : Half) :
    (sext16 v).toNat = if v.toNat < 2 ^ 15 then v.toNat else v.toNat + (2 ^ 32 - 2 ^ 16) := by
  rw [sext16, BitVec.toNat_signExtend, BitVec.toNat_setWidth_of_le (by decide), BitVec.msb_eq_decide]
  simp only [decide_eq_true_eq]
  rcases Nat.lt_or_ge v.toNat (2 ^ 15) with hlow | hhigh
  · rw [if_neg (Nat.not_le.mpr hlow), if_pos hlow, Nat.add_zero]
  · rw [if_pos hhigh, if_neg (Nat.not_lt.mpr hhigh)]

/-- Modulo 2^32 it does not matter that the sum of the signed values may leave the signed range (R200). -/
theorem add_sext16_eq_ofInt (a : Word) (v : Half) : a + sext16 v = BitVec.ofInt 32 (a.toInt + v.toInt) := by
  rw [BitVec.ofInt_add, BitVec.ofInt_toInt, ← sext16_toInt, BitVec.ofInt_toInt]

theorem setLessSigned_sext16 (a : Word) (v : Half) :
    setLessSigned a (sext16 v) = if a.toInt < v.toInt then 1 else 0 := by
  rw [setLessSigned, sext16_toInt]

theorem setLessUnsigned_sext16 (a : Word) (v : Half) : setLessUnsigned a (sext16 v) =
    if a.toNat < (if v.toNat < 2 ^ 15 then v.toNat else v.toNat + (2 ^ 32 - 2 ^ 16)) then 1 else 0 := by
  rw [setLessUnsigned, sext16_toNat]

/-! ## The instructions -/

/-- Settles O17: the word of the signed sum. -/
theorem addImmediateIsSigned : Obligations.AddImmediateIsSigned :=
  ⟨opWordDecodes_iOpcodeOf .addi, fun _ _ _ _ => writesRegister_of_writeback rfl (add_sext16_eq_ofInt ..)⟩

/-- Settles O18: the second operand is the word of the immediate's unsigned value. -/
theorem logicImmediatesAreZeroExtended : Obligations.LogicImmediatesAreZeroExtended :=
  ⟨opWordDecodes_iOpcodeOf .andi, opWordDecodes_iOpcodeOf .ori, fun s _ rs imm =>
    ⟨writesRegister_of_writeback rfl (congrArg (s.reg rs &&& ·) (zext16_eq_ofNat imm)),
     writesRegister_of_writeback rfl (congrArg (s.reg rs ||| ·) (zext16_eq_ofNat imm))⟩⟩

/-- Settles O19: both compare with the sign-extended immediate, read as a signed or as an unsigned number. -/
theorem compareImmediatesSignExtend : Obligations.CompareImmediatesSignExtend :=
  ⟨opWordDecodes_iOpcodeOf .slti, opWordDecodes_iOpcodeOf .sltiu, fun _ _ _ _ =>
    ⟨writesRegister_of_writeback rfl (setLessSigned_sext16 ..),
     writesRegister_of_writeback rfl (setLessUnsigned_sext16 ..)⟩⟩

end Sys2Proof.Machine
end

section
/-! Proofs for 43_load_store.md: encoding, result, frame and fault of the loads and stores (R222 to R228). The encodings
are one fact about a row of the opcode table. A load in range is a register writeback, whose frame is
`writesRegister_of_writeback`; the three stores are `storeLow` at one width each, so their bytes and their frame are
proved once for every width; out of range both kinds are the one fault of the range check. -/

namespace Sys2Proof.Machine

/-! ## The range check (R221) -/

/-- An instruction whose meaning is a guarded access faults out of range, whatever it would have committed. -/
theorem exec_eq_fault_of_guardAccess {i : Instr} {s : State} {a : Word} {w : AccessWidth} {ok : Result}
    (hexec : exec i s = s.guardAccess a w ok) (hrange : ¬ InRange s a w.bytes) :
    exec i s = .fault (.addressOutOfRange a w s.pc) :=
  hexec.trans (guardAccess_outOfRange ok (inRange_false hrange))

/-! ## Loads -/

/-- A load in range is the writeback of the loaded value, with the frame of every writeback. -/
theorem writesRegister_of_loadInto {i : Instr} {s : State} {d : RegIdx} {a v u : Word} {w : AccessWidth}
    (hexec : exec i s = s.loadInto d a w v) (hrange : InRange s a w.bytes) (hvalue : v = u) :
    WritesRegister i s .i d u :=
  writesRegister_of_writeback (hexec.trans (guardAccess_inRange _ (inRange_iff.mpr hrange))) hvalue

/-- A bit vector is determined by its number. -/
theorem eq_ofNat_of_toNat_eq {n k : Nat} {v : BitVec n} (h : v.toNat = k) : v = BitVec.ofNat n k := by
  rw [← h, BitVec.ofNat_toNat, BitVec.setWidth_eq]

theorem Memory.readWord_eq_ofNat (m : Memory) (a : Word) : m.readWord a = BitVec.ofNat 32
    ((m.readByte a).toNat + 2 ^ 8 * (m.readByte (a + 1)).toNat + 2 ^ 16 * (m.readByte (a + 2)).toNat +
      2 ^ 24 * (m.readByte (a + 3)).toNat) :=
  eq_ofNat_of_toNat_eq (wordOfBytes_toNat ..)

theorem Memory.readHalf_eq_ofNat (m : Memory) (a : Word) : m.readHalf a =
    BitVec.ofNat 16 ((m.readByte a).toNat + 2 ^ 8 * (m.readByte (a + 1)).toNat) :=
  eq_ofNat_of_toNat_eq (toNat_append_eq_add ..)

/-- Sign extension makes the word of the signed value (R12). -/
theorem signExtend_eq_ofInt {n : Nat} (v : BitVec n) : v.signExtend 32 = BitVec.ofInt 32 v.toInt := rfl

/-- The two bytes composed into a halfword, then read as a signed number (R223). -/
theorem Memory.sext16_readHalf (m : Memory) (a : Word) : sext16 (m.readHalf a) = BitVec.ofInt 32
    (BitVec.ofNat 16 ((m.readByte a).toNat + 2 ^ 8 * (m.readByte (a + 1)).toNat)).toInt := by
  rw [sext16, signExtend_eq_ofInt, Memory.readHalf_eq_ofNat]

/-- The two bytes composed as an unsigned number (R225). -/
theorem Memory.zext16_readHalf (m : Memory) (a : Word) : zext16 (m.readHalf a) =
    BitVec.ofNat 32 ((m.readByte a).toNat + 2 ^ 8 * (m.readByte (a + 1)).toNat) := by
  rw [zext16_eq_ofNat, Memory.readHalf, toNat_append_eq_add]

/-! ## Stores -/

theorem ne_add_of_not_inAccess {start a : Word} {n k : Nat} (h : ¬ inAccess start n a) (hk : k < n) :
    a ≠ start + BitVec.ofNat 32 k := by
  rintro rfl
  apply h
  rw [inAccess, add_sub_cancel_left, BitVec.toNat_ofNat]
  exact (Nat.mod_le _ _).trans_lt hk

/-- Byte `k` of a store of any width is field `8k+7 : 8k` of the register (R226 to R228). -/
theorem readByte_storeLow_add {m : Memory} (hm : m.wf) (a v : Word) {w : AccessWidth} {k : Nat} (hk : k < w.bytes) :
    (storeLow m a w v).readByte (a + BitVec.ofNat 32 k) = v.extractLsb' (8 * k) 8 := by
  cases w with
  | byte =>
    obtain rfl : k = 0 := Nat.lt_one_iff.mp hk
    exact (congrArg _ (BitVec.add_zero a)).trans (Memory.readByte_writeByte_self hm a _)
  | half =>
    have hlow : (v.setWidth 16).extractLsb' (8 * k) 8 = v.extractLsb' (8 * k) 8 :=
      BitVec.extractLsb'_setWidth_of_le (by change k < 2 at hk; omega)
    exact (Memory.readByte_writeHalf_add hm a _ hk).trans hlow
  | word => exact Memory.readByte_writeWord_add hm a v hk

/-- A store of any width changes no byte outside its access. -/
theorem readByte_storeLow_outside {m : Memory} (hm : m.wf) {a b : Word} (v : Word) {w : AccessWidth}
    (hb : ¬ inAccess a w.bytes b) : (storeLow m a w v).readByte b = m.readByte b := by
  have hne (k : Nat) (hk : k < w.bytes) : b ≠ a + BitVec.ofNat 32 k := ne_add_of_not_inAccess hb hk
  have hstart : b ≠ a := by
    simpa using hne 0 (by cases w <;> decide)
  cases w with
  | byte => rw [storeLow, Memory.readByte_writeByte hm, if_neg hstart]
  | half =>
    have hsecond : b ≠ a + 1 := hne 1 (by decide)
    rw [storeLow, Memory.readByte_writeHalf hm, if_neg hsecond, if_neg hstart]
  | word =>
    have hsecond : b ≠ a + 1 := hne 1 (by decide)
    have hthird : b ≠ a + 2 := hne 2 (by decide)
    have hfourth : b ≠ a + 3 := hne 3 (by decide)
    rw [storeLow, Memory.readByte_writeWord hm, if_neg hfourth, if_neg hthird, if_neg hsecond, if_neg hstart]

/-- A store in range leaves the low bytes of the value in its access and changes nothing else but pc and statistics. -/
theorem storesBytes_of_storeTo {i : Instr} {s : State} {a v : Word} {w : AccessWidth}
    (hexec : exec i s = s.storeTo a w (storeLow s.mem a w v)) (hmem : s.mem.wf) (hrange : InRange s a w.bytes) :
    StoresBytes i s a w.bytes v :=
  ⟨_, hexec.trans (guardAccess_inRange _ (inRange_iff.mpr hrange)),
   fun _ hk => readByte_storeLow_add hmem a v hk, fun _ hb => readByte_storeLow_outside hmem v hb,
   rfl, fun _ => rfl, by simp [EngineKept], counted_retire s _ .i _ rfl rfl⟩

/-! ## The instructions -/

/-- Settles O21: the word read is the number its four bytes compose. -/
theorem loadWordReadsFourBytes : Obligations.LoadWordReadsFourBytes :=
  ⟨opWordDecodes_iOpcodeOf .lw, fun s _ rs imm =>
    ⟨fun h => writesRegister_of_loadInto rfl h (s.mem.readWord_eq_ofNat (s.ea rs imm)),
     fun h => exec_eq_fault_of_guardAccess rfl h⟩⟩

/-- Settles O22: one halfword, read as a signed number by lh and as an unsigned one by lhu. -/
theorem loadHalfReadsTwoBytes : Obligations.LoadHalfReadsTwoBytes :=
  ⟨opWordDecodes_iOpcodeOf .lh, opWordDecodes_iOpcodeOf .lhu, fun s _ rs imm =>
    ⟨fun h => ⟨writesRegister_of_loadInto rfl h (s.mem.sext16_readHalf (s.ea rs imm)),
       writesRegister_of_loadInto rfl h (s.mem.zext16_readHalf (s.ea rs imm))⟩,
     fun h => ⟨exec_eq_fault_of_guardAccess rfl h, exec_eq_fault_of_guardAccess rfl h⟩⟩⟩

/-- Settles O23: sign extension writes the byte's signed value as a word. -/
theorem loadByteIsSigned : Obligations.LoadByteIsSigned :=
  ⟨opWordDecodes_iOpcodeOf .lb, fun _ _ _ _ =>
    ⟨fun h => writesRegister_of_loadInto rfl h (signExtend_eq_ofInt _), fun h => exec_eq_fault_of_guardAccess rfl h⟩⟩

/-- Settles O24: sw is `storeLow` at the word width. -/
theorem storeWordWritesFourBytes : Obligations.StoreWordWritesFourBytes :=
  ⟨opWordDecodes_iOpcodeOf .sw, fun _ _ _ _ hmem =>
    ⟨storesBytes_of_storeTo (w := .word) rfl hmem, fun h => exec_eq_fault_of_guardAccess rfl h⟩⟩

/-- Settles O25: sh is `storeLow` at the halfword width. -/
theorem storeHalfWritesTwoBytes : Obligations.StoreHalfWritesTwoBytes :=
  ⟨opWordDecodes_iOpcodeOf .sh, fun _ _ _ _ hmem =>
    ⟨storesBytes_of_storeTo (w := .half) rfl hmem, fun h => exec_eq_fault_of_guardAccess rfl h⟩⟩

/-- Settles O26: sb is `storeLow` at the byte width. -/
theorem storeByteWritesOneByte : Obligations.StoreByteWritesOneByte :=
  ⟨opWordDecodes_iOpcodeOf .sb, fun _ _ _ _ hmem =>
    ⟨storesBytes_of_storeTo (w := .byte) rfl hmem, fun h => exec_eq_fault_of_guardAccess rfl h⟩⟩

end Sys2Proof.Machine
end

section
/-! Proofs for 44_control_transfer.md: encoding, target and frame of the branches and jumps (R250 to R258). An encoding is
one fact about a row of its opcode table; the frame of all but jal is that of `goto_spec`; what is left of an instruction
is which number its target is. -/

namespace Sys2Proof.Machine

/-- A word of a J-type row's opcode is built from its own fields, so it decodes to the row's instruction of them
(R88, R90). -/
theorem opWordDecodes_jOpcodeOf (k : JMnem) :
    OpWordDecodes (defaultOpcodeMap.jOpcodeOf k) (fun w => jInstr k (targetField w)) := by
  intro w hopcode
  have hbuilt : buildJ (defaultOpcodeMap.jOpcodeOf k) (targetField w) = w := hopcode ▸ buildJ_fields w
  have hdecoded := decodeWith_buildJ defaultOpcodeMap_wellFormed k (targetField w)
  rwa [hbuilt] at hdecoded

/-- An instruction whose meaning is a jump without a link completes, goes to its target and keeps the rest
(`goto_spec`). -/
theorem goesTo_of_goto {i : Instr} {s : State} {k : Format} {p target : Word}
    (hexec : exec i s = s.goto k p) (htarget : p = target) : GoesTo i s k target := by
  obtain ⟨t, hnext, hpc, hregs, hmem, hengine, hcounted⟩ := goto_spec s k p
  exact ⟨t, hexec.trans hnext, hpc.trans htarget, hregs, memoryKept_of_eq hmem, hengine, hcounted⟩

theorem wordsEqual_iff {a b : Word} : wordsEqual a b = true ↔ a = b := beq_iff_eq

/-! ## Targets as numbers -/

/-- Modulo 2^32 a shift of the sign-extended offset by two places is its signed value times 4 (R252). -/
theorem branchTarget_eq_ofInt (pc : Word) (imm : Imm) :
    branchTarget pc imm = BitVec.ofInt 32 (pc.toNat + 4 + imm.toInt * 4 : Int) := by
  have hoffset : sext16 imm <<< 2 = BitVec.ofInt 32 (imm.toInt * 4) := by
    rw [BitVec.shiftLeft_eq_mul_twoPow, BitVec.ofInt_mul, sext16, signExtend_eq_ofInt]
    rfl
  rw [branchTarget, hoffset, pcPlus4, BitVec.ofInt_add, BitVec.ofInt_add, BitVec.ofInt_natCast, BitVec.ofNat_toNat,
    BitVec.setWidth_eq]
  rfl

/-- The mask of R256 keeps the four bits that number the 256 MiB region, and clears the place in it. -/
theorem and_regionMask_toNat (pc : Word) : (pc &&& 0xF0000000#32).toNat = pc.toNat >>> 28 <<< 28 := by
  have hmask : ∀ k < 32, (0xF0000000#32).getLsbD k = decide (28 ≤ k) := by decide
  have hregion : pc &&& 0xF0000000#32 = pc >>> 28 <<< 28 := by
    refine BitVec.eq_of_getLsbD_eq fun k hk => ?_
    rw [BitVec.getLsbD_and, hmask k hk, BitVec.getLsbD_shiftLeft, BitVec.getLsbD_ushiftRight]
    rcases Nat.lt_or_ge k 28 with hlow | hhigh
    · simp [hlow]
    · simp [hk, hhigh]
  have hin : pc.toNat >>> 28 <<< 28 < 2 ^ 32 := by
    rw [Nat.shiftLeft_eq, Nat.shiftRight_eq_div_pow]
    exact (Nat.div_mul_le_self _ _).trans_lt pc.isLt
  rw [hregion, BitVec.toNat_shiftLeft, BitVec.toNat_ushiftRight, Nat.mod_eq_of_lt hin]

/-- The place in the region is below 2^28, so the region's bits and its own meet in no position and their union is a sum
(R87, R256). -/
theorem jumpTarget_eq_ofNat (pc : Word) (target : Target) :
    jumpTarget pc target = BitVec.ofNat 32 (pc.toNat / 2 ^ 28 * 2 ^ 28 + target.toNat * 4) := by
  have hplace : (target.setWidth 32 <<< 2).toNat = target.toNat * 4 := by
    rw [BitVec.toNat_shiftLeft, BitVec.toNat_setWidth_of_le (by decide), Nat.shiftLeft_eq]
    omega
  have hbelow : target.toNat * 4 < 2 ^ 28 := by omega
  apply eq_ofNat_of_toNat_eq
  rw [jumpTarget, BitVec.toNat_or, and_regionMask_toNat, hplace, ← Nat.shiftLeft_add_eq_or_of_lt hbelow,
    Nat.shiftLeft_eq, Nat.shiftRight_eq_div_pow]

/-! ## The instructions -/

/-- Settles O27: both branches choose between the same two targets, by the same comparison. -/
theorem branchesGoToTheirOffsetOrOn : Obligations.BranchesGoToTheirOffsetOrOn :=
  ⟨opWordDecodes_iOpcodeOf .beq, opWordDecodes_iOpcodeOf .bne, fun s _ _ imm =>
    ⟨fun heq =>
      have hequal := wordsEqual_iff.mpr heq
      ⟨goesTo_of_goto rfl ((if_pos hequal).trans (branchTarget_eq_ofInt s.pc imm)), goesTo_of_goto rfl (if_pos hequal)⟩,
     fun hne =>
      have hunequal := mt wordsEqual_iff.mp hne
      ⟨goesTo_of_goto rfl (if_neg hunequal),
       goesTo_of_goto rfl ((if_neg hunequal).trans (branchTarget_eq_ofInt s.pc imm))⟩⟩⟩

/-- Settles O28: the jump target is the number of R256. -/
theorem jumpStaysInItsRegion : Obligations.JumpStaysInItsRegion :=
  ⟨opWordDecodes_jOpcodeOf .j, fun _ _ => goesTo_of_goto rfl (jumpTarget_eq_ofNat ..)⟩

/-- Settles O29: jal is the writeback of its link to register 31, with the target in place of the next pc (R257). -/
theorem jumpAndLinkLinksTheNextWord : Obligations.JumpAndLinkLinksTheNextWord := by
  refine ⟨opWordDecodes_jOpcodeOf .jal, fun s target => ?_⟩
  obtain ⟨t, hnext, hlink, hregs, -, hmem, hengine, hcounted⟩ := writeback_spec s .j 31 (s.pc + 4)
  have hexec : exec (.jal target) s = .next { t with pc := jumpTarget s.pc target } := by
    rw [writeback_next hnext]
    rfl
  exact ⟨_, hexec, hlink.trans (if_neg (by decide)), hregs, jumpTarget_eq_ofNat s.pc target, memoryKept_of_eq hmem,
    hengine, hcounted⟩

/-- Settles O30: any register value is a target, aligned or not. -/
theorem jumpRegisterGoesToTheRegister : Obligations.JumpRegisterGoesToTheRegister :=
  ⟨rWordDecodes_functOf .jr, fun _ _ => goesTo_of_goto rfl rfl⟩

end Sys2Proof.Machine
end

section
/-! The machine's invariant: what holds of every state the machine can be in (10_state.md R22, 20_memory.md R51 to
R53, 60_exceptions.md R341). A step commits at most one register write or one store that passed the range check, so
each of these keeping the invariant is all that is to be shown. -/

namespace Sys2Proof.Machine

/-! ## Memory within its bound -/

theorem Memory.wf_storeLow {m : Memory} (hm : m.wf) (a v : Word) (w : AccessWidth) : (storeLow m a w v).wf := by
  cases w with
  | byte => exact Memory.wf_writeByte hm a _
  | half => exact Memory.wf_writeHalf hm a _
  | word => exact Memory.wf_writeWord hm a v

/-- A store that passed the range check writes below the bound of the memory policy (R53). -/
theorem Memory.below_storeLow {m : Memory} {p : MemPolicy} (hm : m.below (addressBound p)) {a : Word} (v : Word)
    {w : AccessWidth} (hrange : accessInRange p a w.bytes = true) :
    (storeLow m a w v).below (addressBound p) := by
  have hbyte (k : Nat) (hk : k < w.bytes) : (a + BitVec.ofNat 32 k).toNat < addressBound p :=
    byte_below_of_inRange hrange k hk
  have hfirst : a.toNat < addressBound p := by
    simpa using hbyte 0 (by cases w <;> decide)
  cases w with
  | byte => exact Memory.below_writeByte hm a _ hfirst
  | half => exact Memory.below_writeHalf hm a _ hfirst (hbyte 1 (by decide))
  | word =>
    exact Memory.below_writeWord hm a v hfirst (hbyte 1 (by decide)) (hbyte 2 (by decide)) (hbyte 3 (by decide))

/-! ## What keeps the invariant -/

/-- The invariant speaks of registers, memory, parameters and clock only. -/
theorem Inv.congr {s t : State} (hs : Inv s) (hregs : t.regs = s.regs) (hmem : t.mem = s.mem)
    (hparams : t.params = s.params) (hclock : t.clock = s.clock) : Inv t where
  memCanonical := hmem ▸ hs.memCanonical
  memInBounds := by rw [hmem, hparams]; exact hs.memInBounds
  zeroIsZero := hregs ▸ hs.zeroIsZero
  paramsWellFormed := hparams ▸ hs.paramsWellFormed
  clockWellFormed := hclock ▸ hs.clockWellFormed

theorem Inv.setReg {s : State} (hs : Inv s) (r : RegIdx) (v : Word) : Inv (s.setReg r v) where
  memCanonical := by simpa using hs.memCanonical
  memInBounds := by simpa using hs.memInBounds
  zeroIsZero := (s.setReg_regs_zero r v).trans hs.zeroIsZero
  paramsWellFormed := by simpa using hs.paramsWellFormed
  clockWellFormed := by simpa using hs.clockWellFormed

theorem Inv.withStore {s : State} (hs : Inv s) {a : Word} {w : AccessWidth} (v : Word)
    (hrange : s.inRange a w = true) : Inv { s with mem := storeLow s.mem a w v } :=
  { hs with
    memCanonical := Memory.wf_storeLow hs.memCanonical a v w
    memInBounds := Memory.below_storeLow hs.memInBounds v hrange }

theorem Inv.committed {i : Instr} {s u : State} (hs : Inv s) (hu : Committed i s u) : Inv u := by
  rcases hu with ⟨-, -, rfl⟩ | ⟨-, d, v, -, rfl⟩ | ⟨-, -, a, w, v, -, hrange, rfl⟩
  · exact hs
  · exact hs.setReg d v
  · exact hs.withStore v hrange

theorem Inv.exec {i : Instr} {s t : State} (hs : Inv s) (h : exec i s = .next t) : Inv t := by
  obtain ⟨u, p, hu, rfl⟩ := exec_next h
  exact (hs.committed hu).congr rfl rfl rfl rfl

theorem Inv.step {s t : State} (hs : Inv s) (h : step s = .next t) : Inv t := by
  rcases step_next h with ⟨-, rfl⟩ | ⟨-, w, i, -, -, hexec⟩
  · exact hs.congr rfl rfl rfl rfl
  · exact hs.exec hexec

/-- Settles O46: a completion touches nothing the invariant speaks of, an instruction commits a register write or a
store in range, then retires. -/
theorem stepKeepsTheInvariant : Obligations.StepKeepsTheInvariant := fun _ _ hs h => hs.step h

end Sys2Proof.Machine
end

section
/-! What an instruction commits, and what it leaves: registers and engine state (10_state.md R23, R28 to R32), the
next pc (R152, R260), memory (20_memory.md R52 to R67). All of it follows from the inversion `exec_next` and from the
next pc of each instruction, stated once below. -/

namespace Sys2Proof.Machine

/-! ## Registers (R23) -/

theorem RegsKeptBut.setReg (s : State) (d : RegIdx) (v : Word) : RegsKeptBut d s (s.setReg d v) :=
  fun _ hr => s.reg_setReg_of_ne v hr

theorem Committed.reg_eq {i : Instr} {s u : State} (h : Committed i s u) {r : RegIdx} (hr : destination i ≠ some r) :
    u.reg r = s.reg r := by
  rcases h with ⟨-, -, rfl⟩ | ⟨-, d, v, hd, rfl⟩ | ⟨-, -, a, w, v, -, -, rfl⟩
  · rfl
  · exact RegsKeptBut.setReg s d v r fun hrd => hr (hrd ▸ hd)
  · rfl

/-- Settles O12: a commit is nothing, the write of the destination, or a store, and `retire` writes no register. -/
theorem onlyTheDestinationRegisterIsWritten : Obligations.OnlyTheDestinationRegisterIsWritten := by
  intro i s t h r hr
  obtain ⟨u, p, hu, rfl⟩ := exec_next h
  exact hu.reg_eq hr

/-! ## The next pc (R152, R260) -/

/-- Where each instruction goes on when it completes. -/
def nextPc (s : State) : Instr → Word
  | .beq rs rt imm => if wordsEqual (s.reg rs) (s.reg rt) then branchTarget s.pc imm else pcPlus4 s.pc
  | .bne rs rt imm => if wordsEqual (s.reg rs) (s.reg rt) then pcPlus4 s.pc else branchTarget s.pc imm
  | .j target | .jal target => jumpTarget s.pc target
  | .jr rs => s.reg rs
  | _ => pcPlus4 s.pc

theorem exec_pc {i : Instr} {s t : State} (h : exec i s = .next t) : t.pc = nextPc s i := by
  cases i with
  | lw rt rs imm | lh rt rs imm | lb rt rs imm | lhu rt rs imm => exact congrArg State.pc (loadInto_next h).2
  | sw rt rs imm | sh rt rs imm | sb rt rs imm => exact congrArg State.pc (storeTo_next h).2
  | _ => cases h; rfl

theorem pcPlus4_aligned {pc : Word} (h : pc.toNat % 4 = 0) : (pcPlus4 pc).toNat % 4 = 0 := by
  have hsum : (pcPlus4 pc).toNat = (pc.toNat + 4) % 2 ^ 32 := BitVec.toNat_add pc 4
  omega

/-- The offset of a branch is shifted by two places, so it is a multiple of 4 (R86). -/
theorem branchTarget_aligned {pc : Word} (imm : Imm) (h : pc.toNat % 4 = 0) :
    (branchTarget pc imm).toNat % 4 = 0 := by
  have hoffset : (sext16 imm <<< 2).toNat = ((sext16 imm).toNat * 4) % 2 ^ 32 := by
    rw [BitVec.toNat_shiftLeft, Nat.shiftLeft_eq]
  have hnext := pcPlus4_aligned h
  rw [branchTarget, BitVec.toNat_add]
  omega

/-- A jump goes to word `target` of a 256 MiB region (R87). -/
theorem jumpTarget_aligned (pc : Word) (target : Target) : (jumpTarget pc target).toNat % 4 = 0 := by
  rw [jumpTarget_eq_ofNat, BitVec.toNat_ofNat]
  omega

theorem nextPc_aligned {i : Instr} {s : State} (hjr : ∀ rs, i ≠ .jr rs) (h : s.pc.toNat % 4 = 0) :
    (nextPc s i).toNat % 4 = 0 := by
  cases i with
  | jr rs => exact absurd rfl (hjr rs)
  | j target | jal target => exact jumpTarget_aligned s.pc target
  | beq rs rt imm =>
    simp only [nextPc]
    split
    · exact branchTarget_aligned imm h
    · exact pcPlus4_aligned h
  | bne rs rt imm =>
    simp only [nextPc]
    split
    · exact pcPlus4_aligned h
    · exact branchTarget_aligned imm h
  | _ => exact pcPlus4_aligned h

/-- Settles O31: every next pc but that of jr is aligned with the pc; the fetch has no alignment check. -/
theorem alignedPcStaysAlignedButForJr : Obligations.AlignedPcStaysAlignedButForJr :=
  ⟨fun _ _ _ hjr halign h => exec_pc h ▸ nextPc_aligned hjr halign, fun _ h => fetch_inRange (inRange_iff.mpr h)⟩

/-! ## Memory (R52 to R67) -/

/-- Every byte of an access in range is in range itself (R53, R54). -/
theorem inRange_byte_of_inRange {s : State} {a : Word} {w : AccessWidth} (h : InRange s a w.bytes) {k : Nat}
    (hk : k < w.bytes) : InRange s (a + BitVec.ofNat 32 k) 1 := by
  intro capacity hcap
  have hlt : (a + BitVec.ofNat 32 k).toNat < addressBound s.params.memPolicy :=
    byte_below_of_inRange (inRange_iff.mpr h) k hk
  rw [hcap] at hlt
  exact hlt

/-- Settles O34: the store was in range, so is each of its bytes; the byte stands there, and lb extends it. -/
theorem byteLoadsSeeTheStoredWord : Obligations.ByteLoadsSeeTheStoredWord := by
  intro s t rt rs imm hmem hstore k rd rb off hk hea
  obtain ⟨hrange, ht⟩ := storeTo_next hstore
  have hbyte : t.mem.readByte (t.ea rb off) = (s.reg rt).extractLsb' (8 * k) 8 := by
    rw [hea, ht]
    exact Memory.readByte_writeWord_add hmem (s.ea rs imm) (s.reg rt) hk
  have hin : InRange t (t.ea rb off) 1 := by
    rw [hea, ht]
    exact inRange_byte_of_inRange (inRange_iff.mp hrange) hk
  obtain ⟨u, hload, hreg, -⟩ :=
    writesRegister_of_loadInto (i := .lb rd rb off) (w := .byte) rfl hin (congrArg sext8 hbyte)
  exact ⟨u, hload, hreg⟩

/-- Settles O35: the fetch checks the range that the store has checked, and a stored word reads back. -/
theorem fetchSeesTheStoredWord : Obligations.FetchSeesTheStoredWord := by
  intro s t rt rs imm hmem hstore
  obtain ⟨hrange, rfl⟩ := storeTo_next hstore
  exact ⟨(fetch_inRange hrange).trans (congrArg _ (Memory.readWord_writeWord hmem _ _)), rfl⟩

theorem inRange_of_sparse {s : State} (h : s.params.memPolicy = .sparse) (a : Word) (w : AccessWidth) :
    s.inRange a w = true := by
  rw [State.inRange, h]
  rfl

/-- Settles O36: a fault with an address needs a range check that fails; byte addresses are sums of words. -/
theorem sparseMemoryNeverFaultsAndWraps : Obligations.SparseMemoryNeverFaultsAndWraps := by
  refine ⟨fun s hsparse a w p hstep => ?_, fun _ _ => ⟨rfl, rfl⟩, fun _ _ => ⟨fun _ => rfl, fun _ => rfl⟩⟩
  obtain ⟨-, hfetch | ⟨_, _, -, -, hf⟩ | ⟨_, _, -, -, hexec⟩⟩ := step_fault hstep
  · rw [fetch_inRange (inRange_of_sparse hsparse _ _)] at hfetch
    cases hfetch
  · cases hf
  · obtain ⟨_, _, -, hrange, -⟩ := exec_fault hexec
    rw [inRange_of_sparse hsparse] at hrange
    cases hrange

/-- With another memory, a register write and its retirement do the same. -/
theorem retire_setReg_withMem (s : State) (m : Memory) (d : RegIdx) (v : Word) (k : Format) (p : Word) :
    (({ s with mem := m } : State).setReg d v).retire k p = { (s.setReg d v).retire k p with mem := m } := by
  rw [State.setReg_withMem]
  rfl

/-- Settles O37: what reaches no memory is a writeback or a jump of register values; and a commit that is no store
leaves memory as it is. -/
theorem onlyLoadsAndStoresReachMemory : Obligations.OnlyLoadsAndStoresReachMemory := by
  refine ⟨fun i s m hnone => ?_, fun i s t hstore h => ?_⟩
  · cases i with
    | lw | lh | lb | lhu | sw | sh | sb => cases hnone
    | jr | beq | bne | j => exact ⟨_, rfl, rfl, rfl⟩
    | _ => exact ⟨_, rfl, by simp, congrArg Host.Outcome.next (retire_setReg_withMem s m _ _ _ _)⟩
  · obtain ⟨u, p, hu, rfl⟩ := exec_next h
    rcases hu with ⟨-, -, rfl⟩ | ⟨-, d, v, -, rfl⟩ | ⟨-, hyes, -⟩
    · exact memoryKept_of_eq rfl
    · exact memoryKept_of_eq (by simp)
    · rw [hyes] at hstore
      cases hstore

/-! ## Engine state (R28 to R32) -/

theorem Committed.engineKept {i : Instr} {s u : State} (h : Committed i s u) : EngineKept s u := by
  rcases h with ⟨-, -, rfl⟩ | ⟨-, d, v, -, rfl⟩ | ⟨-, -, a, w, v, -, -, rfl⟩ <;> simp [EngineKept]

theorem exec_engineKept {i : Instr} {s t : State} (h : exec i s = .next t) : EngineKept s t := by
  obtain ⟨u, p, hu, rfl⟩ := exec_next h
  exact hu.engineKept

/-- Settles O44: a completion changes the mode alone, an instruction no engine state at all. -/
theorem stepKeepsTheEngineState : Obligations.StepKeepsTheEngineState := by
  intro s t h
  rcases step_next h with ⟨hhalted, rfl⟩ | ⟨-, w, i, -, -, hexec⟩
  · exact ⟨rfl, rfl, rfl, rfl, rfl, rfl, .inr ⟨(halted_iff s).mp hhalted, rfl⟩⟩
  · obtain ⟨hcodeEnd, hmode, hpause, hpending, hword, hclock, hparams⟩ := exec_engineKept hexec
    exact ⟨hcodeEnd, hclock, hparams, hpause, hpending, hword, .inl hmode⟩

end Sys2Proof.Machine
end

section
/-! Proofs for 30_encoding.md: which words decode (R91), and what a word keeps when it is decoded and encoded again
(R90, R93, R96). The decoder is a row of the opcode map, looked up once (`mnemonicOf`), and the instruction that row
reads from the word's fields; so a fact about decoding is one about the row and one about the fields. -/

namespace Sys2Proof.Machine

/-! ## The decoder as a row and its fields -/

/-- The instruction that a mnemonic reads from the fields of a word (R89, R88). -/
def instrOf (w : Word) : Mnemonic → Instr
  | .r k => rInstr k (rsField w) (rtField w) (rdField w) (shamtField w)
  | .i k => iInstr k (rsField w) (rtField w) (immField w)
  | .j k => jInstr k (targetField w)

/-- A word whose row is found decodes to what the row reads. -/
theorem decodeWith_of_mnemonicOf {m : OpcodeMap} {w : Word} {k : Mnemonic} (h : mnemonicOf m w = some k) :
    decodeWith m w = .ok (instrOf w k) := by
  unfold mnemonicOf at h
  unfold decodeWith decodedWith
  cases hf : formatOf (opcodeField w) <;> rw [hf] at h <;> obtain ⟨k, hk, rfl⟩ := Option.map_eq_some_iff.mp h <;>
    simp only [hk] <;> rfl

/-- A word without a row is no instruction (R91). -/
theorem decodeWith_of_mnemonicOf_none {m : OpcodeMap} {w : Word} (h : mnemonicOf m w = none) :
    ∃ e, decodeWith m w = .error e := by
  unfold mnemonicOf at h
  unfold decodeWith decodedWith
  cases hf : formatOf (opcodeField w) <;> rw [hf] at h <;> simp only [Option.map_eq_none_iff.mp h] <;> exact ⟨_, rfl⟩

theorem decodeWith_ok_iff {m : OpcodeMap} {w : Word} {i : Instr} :
    decodeWith m w = .ok i ↔ ∃ k, mnemonicOf m w = some k ∧ i = instrOf w k := by
  constructor
  · intro h
    cases hk : mnemonicOf m w with
    | none =>
      obtain ⟨e, he⟩ := decodeWith_of_mnemonicOf_none hk
      rw [he] at h
      cases h
    | some k =>
      rw [decodeWith_of_mnemonicOf hk] at h
      cases h
      exact ⟨k, rfl, rfl⟩
  · rintro ⟨k, hk, rfl⟩
    exact decodeWith_of_mnemonicOf hk

/-! ## Words that decode (R91) -/

theorem rMnem_eq_none_iff {m : OpcodeMap} {f : OpField} : m.rMnem f = none ↔ f ∉ m.functs := by
  simp [OpcodeMap.rMnem, m.functs_eq_map]

theorem iMnem_eq_none_iff {m : OpcodeMap} {op : OpField} : m.iMnem op = none ↔ op ∉ m.iOpcodes := by
  simp [OpcodeMap.iMnem, m.iOpcodes_eq_map]

theorem jMnem_eq_none_iff {m : OpcodeMap} {op : OpField} : m.jMnem op = none ↔ op ∉ m.jOpcodes := by
  simp [OpcodeMap.jMnem, m.jOpcodes_eq_map]

/-- A word has no row exactly when it is `unknown`. -/
theorem mnemonicOf_eq_none_iff {m : OpcodeMap} {w : Word} : mnemonicOf m w = none ↔ unknownUnder m w := by
  change _ ↔ (opcodeField w = 0 ∧ functField w ∉ m.functs) ∨
    (opcodeField w ∈ ([2, 3] : List (BitVec 6)) ∧ opcodeField w ∉ m.jOpcodes) ∨
    (opcodeField w ∉ ([0, 2, 3] : List (BitVec 6)) ∧ opcodeField w ∉ m.iOpcodes)
  unfold mnemonicOf formatOf
  by_cases h0 : opcodeField w = 0#6
  · simp [h0, rMnem_eq_none_iff]
  · by_cases h23 : opcodeField w = 2#6 ∨ opcodeField w = 3#6
    · simp [h0, h23, jMnem_eq_none_iff]
    · simp [h0, h23, iMnem_eq_none_iff]

theorem decodes_iff {m : OpcodeMap} {w : Word} : (∃ i, decodeWith m w = .ok i) ↔ ¬ unknownUnder m w := by
  rw [← mnemonicOf_eq_none_iff, ← Ne, Option.ne_none_iff_exists']
  exact ⟨fun ⟨_, hi⟩ => have ⟨k, hk, _⟩ := decodeWith_ok_iff.mp hi; ⟨k, hk⟩,
    fun ⟨_, hk⟩ => ⟨_, decodeWith_of_mnemonicOf hk⟩⟩

/-- The numbers of R88 and R89, written out, are those of the default map (log 1). -/
theorem unknownUnder_default_iff {w : Word} : unknownUnder defaultOpcodeMap w ↔ unknownWord w := by
  have hfunct : ∀ f : BitVec 6, f ∉ defaultOpcodeMap.functs ↔
      f ∉ ([0x00, 0x02, 0x08, 0x20, 0x22, 0x24, 0x25, 0x27, 0x2A, 0x2B] : List (BitVec 6)) := by decide
  have hopcode : ∀ op : BitVec 6,
      (op ∈ ([2, 3] : List (BitVec 6)) ∧ op ∉ defaultOpcodeMap.jOpcodes) ∨
        (op ∉ ([0, 2, 3] : List (BitVec 6)) ∧ op ∉ defaultOpcodeMap.iOpcodes) ↔
      op ∉ ([0x00, 0x02, 0x03, 0x04, 0x05, 0x08, 0x0A, 0x0B, 0x0C, 0x0D, 0x20, 0x21, 0x23, 0x25, 0x28, 0x29, 0x2B] :
        List (BitVec 6)) := by decide
  rw [unknownUnder, unknownWord, hfunct, hopcode]

/-- Settles O4: a word decodes exactly when its row is found, under every map. -/
theorem exactlyTheTableWordsDecode : Obligations.ExactlyTheTableWordsDecode :=
  ⟨fun _ _ => decodes_iff, fun _ => decodes_iff.trans (not_congr unknownUnder_default_iff)⟩

/-! ## Words with the ignored fields cleared (R93) -/

/-- A field that a mask keeps whole. -/
theorem extractLsb'_and_kept {w u : Word} {start len : Nat} (h : u.extractLsb' start len = BitVec.allOnes len) :
    (w &&& u).extractLsb' start len = w.extractLsb' start len := by
  rw [BitVec.extractLsb'_and, h, BitVec.and_allOnes]

/-- A field that a mask clears. -/
theorem extractLsb'_and_cleared {w u : Word} {start len : Nat} (h : u.extractLsb' start len = 0) :
    (w &&& u).extractLsb' start len = 0 := by
  rw [BitVec.extractLsb'_and, h]
  exact BitVec.and_zero

/-- The four ways to use a word (R93). -/
theorem usedBits_eq (i : Instr) :
    usedBits i = 0xFFFFF83F ∨ usedBits i = 0xFC1FFFFF ∨ usedBits i = 0xFFE0003F ∨ usedBits i = 0xFFFFFFFF := by
  cases i <;> simp [usedBits]

/-- Every instruction uses bits 31..26 and bits 5..0: an R-type one its opcode and funct, another every bit. -/
theorem usedBits_opcode_funct (i : Instr) :
    (usedBits i).extractLsb' 26 6 = BitVec.allOnes 6 ∧ (usedBits i).extractLsb' 0 6 = BitVec.allOnes 6 := by
  rcases usedBits_eq i with h | h | h | h <;> rw [h] <;> decide

theorem opcodeField_and_usedBits (w : Word) (i : Instr) : opcodeField (w &&& usedBits i) = opcodeField w :=
  extractLsb'_and_kept (usedBits_opcode_funct i).1

theorem functField_and_usedBits (w : Word) (i : Instr) : functField (w &&& usedBits i) = functField w :=
  extractLsb'_and_kept (usedBits_opcode_funct i).2

/-- I- and J-type instructions use every bit. -/
theorem and_usedBits_iInstr (w : Word) (k : IMnem) (rs rt : RegIdx) (imm : Imm) :
    w &&& usedBits (iInstr k rs rt imm) = w := by
  cases k <;> exact BitVec.and_allOnes

theorem and_usedBits_jInstr (w : Word) (k : JMnem) (target : Target) : w &&& usedBits (jInstr k target) = w := by
  cases k <;> exact BitVec.and_allOnes

/-- The three-register instructions ignore the shamt. -/
theorem fields_and_threeRegisters (w : Word) :
    rsField (w &&& 0xFFFFF83F) = rsField w ∧ rtField (w &&& 0xFFFFF83F) = rtField w ∧
    rdField (w &&& 0xFFFFF83F) = rdField w ∧ shamtField (w &&& 0xFFFFF83F) = 0 :=
  ⟨congrArg BitVec.toFin (extractLsb'_and_kept rfl), congrArg BitVec.toFin (extractLsb'_and_kept rfl),
   congrArg BitVec.toFin (extractLsb'_and_kept rfl), extractLsb'_and_cleared rfl⟩

/-- The shifts ignore rs. -/
theorem fields_and_shift (w : Word) :
    rsField (w &&& 0xFC1FFFFF) = 0 ∧ rtField (w &&& 0xFC1FFFFF) = rtField w ∧
    rdField (w &&& 0xFC1FFFFF) = rdField w ∧ shamtField (w &&& 0xFC1FFFFF) = shamtField w :=
  ⟨congrArg BitVec.toFin (extractLsb'_and_cleared rfl), congrArg BitVec.toFin (extractLsb'_and_kept rfl),
   congrArg BitVec.toFin (extractLsb'_and_kept rfl), extractLsb'_and_kept rfl⟩

/-- jr ignores rt, rd and the shamt. -/
theorem fields_and_jr (w : Word) :
    rsField (w &&& 0xFFE0003F) = rsField w ∧ rtField (w &&& 0xFFE0003F) = 0 ∧
    rdField (w &&& 0xFFE0003F) = 0 ∧ shamtField (w &&& 0xFFE0003F) = 0 :=
  ⟨congrArg BitVec.toFin (extractLsb'_and_kept rfl), congrArg BitVec.toFin (extractLsb'_and_cleared rfl),
   congrArg BitVec.toFin (extractLsb'_and_cleared rfl), extractLsb'_and_cleared rfl⟩

/-- An R-type row reads the same instruction when the fields it ignores are cleared. -/
theorem instrOf_and_usedBits_r (w : Word) (k : RMnem) :
    instrOf (w &&& usedBits (instrOf w (.r k))) (.r k) = instrOf w (.r k) := by
  cases k with
  | sll | srl => simp only [instrOf, rInstr, usedBits, fields_and_shift]
  | jr => simp only [instrOf, rInstr, usedBits, fields_and_jr]
  | _ => simp only [instrOf, rInstr, usedBits, fields_and_threeRegisters]

theorem formatOf_eq_r {op : OpField} : formatOf op = .r → op = 0 := by
  revert op
  decide

section
variable {m : OpcodeMap} {w : Word}

/-- An R-type row belongs to the word's opcode 0 and funct (R81, R123). -/
theorem mnemonicOf_r {k : RMnem} (h : mnemonicOf m w = some (.r k)) :
    opcodeField w = 0 ∧ m.functOf k = functField w := by
  unfold mnemonicOf at h
  split at h
  · obtain ⟨k, hk, ⟨⟩⟩ := Option.map_eq_some_iff.mp h
    exact ⟨formatOf_eq_r ‹_›, functOf_of_rMnem hk⟩
  · obtain ⟨_, -, ⟨⟩⟩ := Option.map_eq_some_iff.mp h
  · obtain ⟨_, -, ⟨⟩⟩ := Option.map_eq_some_iff.mp h

/-- An I-type row belongs to the word's opcode (R123). -/
theorem mnemonicOf_i {k : IMnem} (h : mnemonicOf m w = some (.i k)) : m.iOpcodeOf k = opcodeField w := by
  unfold mnemonicOf at h
  split at h <;> obtain ⟨k, hk, ⟨⟩⟩ := Option.map_eq_some_iff.mp h
  exact iOpcodeOf_of_iMnem hk

/-- A J-type row belongs to the word's opcode (R123). -/
theorem mnemonicOf_j {k : JMnem} (h : mnemonicOf m w = some (.j k)) : m.jOpcodeOf k = opcodeField w := by
  unfold mnemonicOf at h
  split at h <;> obtain ⟨k, hk, ⟨⟩⟩ := Option.map_eq_some_iff.mp h
  exact jOpcodeOf_of_jMnem hk

/-- The instruction's word is the word itself with the ignored fields cleared. -/
theorem encodeWith_instrOf {k : Mnemonic} (h : mnemonicOf m w = some k) :
    encodeWith m (instrOf w k) = w &&& usedBits (instrOf w k) := by
  cases k with
  | r k =>
    obtain ⟨hopcode, hfunct⟩ := mnemonicOf_r h
    rw [instrOf, ← buildR_fields (w &&& _) ((opcodeField_and_usedBits w _).trans hopcode), functField_and_usedBits,
      ← hfunct]
    cases k with
    | sll | srl => simp only [rInstr, usedBits, fields_and_shift]; rfl
    | jr => simp only [rInstr, usedBits, fields_and_jr]; rfl
    | _ => simp only [rInstr, usedBits, fields_and_threeRegisters]; rfl
  | i k =>
    rw [instrOf, and_usedBits_iInstr]
    refine Eq.trans ?_ (buildI_fields w)
    rw [← mnemonicOf_i h]
    cases k <;> rfl
  | j k =>
    rw [instrOf, and_usedBits_jInstr]
    refine Eq.trans ?_ (buildJ_fields w)
    rw [← mnemonicOf_j h]
    cases k <;> rfl

/-- Settles O3: the word of a decoded instruction, row by row. -/
theorem encodeOfDecodeIsTheWordOnUsedBits : Obligations.EncodeOfDecodeIsTheWordOnUsedBits := by
  intro m w i h
  obtain ⟨k, hk, rfl⟩ := decodeWith_ok_iff.mp h
  exact encodeWith_instrOf hk

/-- The row of a word is found again when the ignored fields are cleared. -/
theorem mnemonicOf_and_usedBits (i : Instr) : mnemonicOf m (w &&& usedBits i) = mnemonicOf m w := by
  rw [mnemonicOf, mnemonicOf, opcodeField_and_usedBits, functField_and_usedBits]

theorem instrOf_and_usedBits (k : Mnemonic) : instrOf (w &&& usedBits (instrOf w k)) k = instrOf w k := by
  cases k with
  | r k => exact instrOf_and_usedBits_r w k
  | i k => exact congrArg (instrOf · (.i k)) (and_usedBits_iInstr w k _ _ _)
  | j k => exact congrArg (instrOf · (.j k)) (and_usedBits_jInstr w k _)

end

/-- Settles O1: each word's row and fields are computed. -/
theorem wordsOfTheTablesDecode : Obligations.WordsOfTheTablesDecode := by
  unfold Obligations.WordsOfTheTablesDecode
  decide

end Sys2Proof.Machine
end

section
/-! Proofs for 40_units.md: the machine of the units takes the step of the instruction rules (R150), its control
class (R126) and the laws of its ALU (R137). Both machines fetch alike and find the same row; what is left is that
the row of R127 makes the units do what the instruction's rule says, one row after the other. -/

namespace Sys2Proof.Machine

/-! ## The ALU (R137) -/

/-- Settles O7: subtraction is addition of the complement and 1; the rest are facts of 32-bit words. -/
theorem aluSatisfiesItsLaws : Obligations.AluSatisfiesItsLaws := by
  refine ⟨fun a b sh => ?_, fun a sh => ⟨BitVec.add_zero a, BitVec.sub_self a, ?_⟩, fun sh => ⟨rfl, rfl, rfl⟩⟩
  · calc aluResult .sub a b sh = a + (~~~b + 1#32) := by rw [aluResult, BitVec.sub_eq_add_neg, BitVec.neg_eq_not_add]
      _ = aluResult .add (aluResult .add a (~~~b) sh) 1 sh := (BitVec.add_assoc a (~~~b) 1).symm
  · exact congrArg (~~~·) BitVec.or_zero

/-! ## The control class (R126) -/

/-- The five mnemonics of R126, written out. -/
theorem isControlTransfer_iff {k : Mnemonic} : isControlTransfer k = true ↔
    k ∈ ([.j .j, .j .jal, .r .jr, .i .beq, .i .bne] : List Mnemonic) := by
  cases k with
  | r k => cases k <;> decide
  | i k => cases k <;> decide
  | j k => cases k <;> decide

theorem isCtl_iff {k : Option Mnemonic} : isCtl k = true ↔
    ∃ l ∈ ([.j .j, .j .jal, .r .jr, .i .beq, .i .bne] : List Mnemonic), k = some l := by
  cases k with
  | none => simp [isCtl]
  | some k => exact isControlTransfer_iff.trans ⟨fun h => ⟨k, h, rfl⟩, fun ⟨_, h, hk⟩ => Option.some.inj hk ▸ h⟩

/-- What is no control transfer goes on at `pc + 4` (R152). -/
theorem nextPc_instrOf {k : Mnemonic} (h : isControlTransfer k = false) (w : Word) (s : State) :
    nextPc s (instrOf w k) = s.pc + 4 := by
  cases k with
  | r k =>
    cases k with
    | jr => cases h
    | _ => rfl
  | i k =>
    cases k with
    | beq | bne => cases h
    | _ => rfl
  | j k => cases h

/-- Settles O10: a decoded word has a row; its class says whether its next pc is `pc + 4`. -/
theorem onlyControlTransfersLeaveTheSequence : Obligations.OnlyControlTransfersLeaveTheSequence := by
  refine ⟨fun m w => isCtl_iff, fun m w i s t hdecode hctl h => ?_⟩
  obtain ⟨k, hk, rfl⟩ := decodeWith_ok_iff.mp hdecode
  change isCtl (mnemonicOf m w) = false at hctl
  rw [hk] at hctl
  exact (exec_pc h).trans (nextPc_instrOf hctl w s)

/-! ## The rows of the control table (R127) -/

section
variable (s : State) {d : DecoderOut} {v : Word} (himm : d.immExt = v)
include himm

theorem datapathExec_iAluRow (op : AluOp) : datapathExec s d (iAluRow op) =
    s.writeback .i d.rt (aluResult op (s.reg d.rs) v Config.unusedShamt) := himm ▸ rfl

theorem datapathExec_loadRow (w : AccessWidth) (signed : Bool) : datapathExec s d (loadRow w signed) =
    s.loadInto d.rt (s.reg d.rs + v) w (loadExtended s.mem (s.reg d.rs + v) w signed) := himm ▸ rfl

theorem datapathExec_storeRow (w : AccessWidth) : datapathExec s d (storeRow w) =
    s.storeTo (s.reg d.rs + v) w (storeLow s.mem (s.reg d.rs + v) w (s.reg d.rt)) := himm ▸ rfl

end

section
variable {m : OpcodeMap} {w : Word}

theorem decoderOutputs_ctl {k : Mnemonic} (h : mnemonicOf m w = some k) :
    (decoderOutputs m w).ctl = some (controlRow k) :=
  congrArg (Option.map controlRow) h

theorem decoderOutputs_immExt {k : Mnemonic} (h : mnemonicOf m w = some k) :
    (decoderOutputs m w).immExt = immExtend (some k) (immField w) :=
  congrArg (immExtend · (immField w)) h

/-- The units under the row of a mnemonic do what its instruction's rule says. -/
theorem datapathExec_controlRow {k : Mnemonic} (h : mnemonicOf m w = some k) (s : State) :
    datapathExec s (decoderOutputs m w) (controlRow k) = exec (instrOf w k) s := by
  have himm := decoderOutputs_immExt h
  cases k with
  | r k =>
    cases k with
    | slt => exact congrArg (s.writeback .r (rdField w)) (aluResult_slt _ _ Config.unusedShamt)
    | sltu => exact congrArg (s.writeback .r (rdField w)) (aluResult_sltu _ _ Config.unusedShamt)
    | _ => rfl
  | i k =>
    cases k with
    | addi => exact datapathExec_iAluRow s himm .add
    | andi => exact datapathExec_iAluRow s himm .and
    | ori => exact datapathExec_iAluRow s himm .or
    | slti =>
      exact (datapathExec_iAluRow s himm .slt).trans (congrArg (s.writeback .i (rtField w)) (aluResult_slt _ _ _))
    | sltiu =>
      exact (datapathExec_iAluRow s himm .sltu).trans (congrArg (s.writeback .i (rtField w)) (aluResult_sltu _ _ _))
    | lw => exact datapathExec_loadRow s himm .word false
    | lh => exact datapathExec_loadRow s himm .half true
    | lb => exact datapathExec_loadRow s himm .byte true
    | lhu => exact datapathExec_loadRow s himm .half false
    | sw => exact datapathExec_storeRow s himm .word
    | sh => exact datapathExec_storeRow s himm .half
    | sb => exact datapathExec_storeRow s himm .byte
    | beq => rfl
    | bne => rfl
  | j k => cases k <;> rfl

end

/-- Settles O9: completion and fetch are the same; a word without a row faults alike, a row is executed alike. -/
theorem unitsAndInstructionRulesTakeTheSameStep : Obligations.UnitsAndInstructionRulesTakeTheSameStep := by
  intro s
  cases hhalted : s.halted with
  | true =>
    rw [step_of_halted hhalted]
    simp only [datapathStep, hhalted, if_true]
  | false =>
    cases hfetch : s.fetch with
    | error f => simp only [datapathStep, step, hhalted, hfetch, Bool.false_eq_true, if_false]
    | ok w =>
      cases hk : mnemonicOf s.params.opcodeMap w with
      | none =>
        obtain ⟨e, he⟩ := decodeWith_of_mnemonicOf_none hk
        have hctl : (decoderOutputs s.params.opcodeMap w).ctl = none := congrArg (Option.map controlRow) hk
        simp only [datapathStep, step, hhalted, hfetch, hctl, he, Bool.false_eq_true, if_false]
      | some k =>
        rw [step_of_decode hhalted hfetch (decodeWith_of_mnemonicOf hk), ← datapathExec_controlRow hk s]
        simp only [datapathStep, hhalted, hfetch, decoderOutputs_ctl hk, Bool.false_eq_true, if_false]

/-- Settles O5: clearing the ignored fields changes neither the row nor what the row reads, and the units execute
either word as that instruction. -/
theorem ignoredFieldsHaveNoEffect : Obligations.IgnoredFieldsHaveNoEffect := by
  intro m w i h
  obtain ⟨k, hk, rfl⟩ := decodeWith_ok_iff.mp h
  have hcleared := (mnemonicOf_and_usedBits (instrOf w k)).trans hk
  refine ⟨(decodeWith_of_mnemonicOf hcleared).trans (congrArg Except.ok (instrOf_and_usedBits k)), fun s c hc => ?_⟩
  obtain rfl : controlRow k = c := Option.some.inj ((decoderOutputs_ctl hk).symm.trans hc)
  refine ⟨decoderOutputs_ctl hcleared, ?_⟩
  rw [datapathExec_controlRow hcleared, datapathExec_controlRow hk, instrOf_and_usedBits]

end Sys2Proof.Machine
end

section
/-! The step (40_units.md R150 to R153) and its faults (60_exceptions.md R321 to R327): what one step does in each of
its branches, that it is never refused, and that an instruction computes the same whatever the engine state is
(10_state.md R29). -/

namespace Sys2Proof.Machine

/-! ## The branches of a step -/

theorem decodeWith_of_decodeBytesWith {m : OpcodeMap} {b0 b1 b2 b3 : Byte} {i : Instr} {rest : List Byte}
    (h : decodeBytesWith m [b0, b1, b2, b3] = .ok (i, rest)) : decodeWith m (wordOfBytes b0 b1 b2 b3) = .ok i := by
  simp only [decodeBytesWith] at h
  split at h <;> cases h
  assumption

/-- Settles O38: the four bytes at pc are the fetched word. -/
theorem stepRunsTheDecodedInstruction : Obligations.StepRunsTheDecodedInstruction :=
  fun _ _ _ hprogram hrange hdecode =>
    step_of_decode (not_halted hprogram) (fetch_inRange (inRange_iff.mpr hrange))
      (decodeWith_of_decodeBytesWith hdecode)

/-- Settles O39: outside the program the engine records a completion; the other ends of an engine step report
something else. -/
theorem stepOutsideTheProgramCompletes : Obligations.StepOutsideTheProgramCompletes := by
  refine ⟨fun s hout => ?_, fun s hin hcompleted => ?_⟩
  · have hhalted := (halted_iff s).mpr hout
    simp only [engineStep, step_of_halted hhalted, hhalted]
    rfl
  · rcases engineStep_cases (Prod.eta (engineStep s)).symm with
      ⟨hhalted, -⟩ | ⟨-, _, -, -, hr⟩ | ⟨_, -, -, hr⟩ | ⟨_, -, hr⟩
    · exact (halted_iff s).mp hhalted hin
    · cases hcompleted.symm.trans hr
    · cases hcompleted.symm.trans hr
    · cases hcompleted.symm.trans hr

/-- An unknown word faults with the word and its pc (R321). -/
theorem step_of_unknown {s : State} (hprogram : InProgram s) (hrange : InRange s s.pc 4)
    (hunknown : unknownUnder s.params.opcodeMap (s.mem.readWord s.pc)) :
    step s = .fault (.unsupportedInstruction (s.mem.readWord s.pc) s.pc) := by
  obtain ⟨e, he⟩ := decodeWith_of_mnemonicOf_none (mnemonicOf_eq_none_iff.mpr hunknown)
  simp only [step, not_halted hprogram, fetch_inRange (inRange_iff.mpr hrange), he]
  rfl

/-- A fetch out of range faults with pc as address and as the instruction's pc (R322). -/
theorem step_of_fetch_outOfRange {s : State} (hprogram : InProgram s) (hrange : ¬ InRange s s.pc 4) :
    step s = .fault (.addressOutOfRange s.pc .word s.pc) := by
  simp only [step, not_halted hprogram, fetch_outOfRange (inRange_false hrange)]
  rfl

/-- A fetch that succeeds was in range and reads the word at pc. -/
theorem fetch_ok {s : State} {w : Word} (h : s.fetch = .ok w) : InRange s s.pc 4 ∧ w = s.mem.readWord s.pc := by
  unfold State.fetch at h
  split at h <;> cases h
  exact ⟨inRange_iff.mp ‹_›, rfl⟩

/-- A fetch that fails was out of range. -/
theorem fetch_error {s : State} {f : Fault} (h : s.fetch = .error f) :
    ¬ InRange s s.pc 4 ∧ f = .addressOutOfRange s.pc .word s.pc := by
  unfold State.fetch at h
  split at h <;> cases h
  exact ⟨fun hrange => ‹¬ _› (inRange_iff.mpr hrange), rfl⟩

theorem unknownUnder_of_decodeWith_error {m : OpcodeMap} {w : Word} {e : DecodeError}
    (h : decodeWith m w = .error e) : unknownUnder m w := by
  by_contra hknown
  obtain ⟨i, hi⟩ := decodes_iff.mpr hknown
  cases hi.symm.trans h

/-- An instruction whose data access is out of range faults with that access (R322). -/
theorem exec_of_dataAccess_outOfRange {i : Instr} {s : State} {a : Word} {w : AccessWidth}
    (haccess : dataAccess s i = some (a, w)) (hrange : ¬ InRange s a w.bytes) :
    exec i s = .fault (.addressOutOfRange a w s.pc) := by
  cases i with
  | lw | lh | lb | lhu | sw | sh | sb => cases haccess; exact exec_eq_fault_of_guardAccess rfl hrange
  | _ => cases haccess

/-- Settles O41: the branches of the step in their order, each of which excludes the ones before it. -/
theorem faultsAreTheseThreeInOrder : Obligations.FaultsAreTheseThreeInOrder := by
  refine ⟨fun s hprogram => ⟨step_of_fetch_outOfRange hprogram, step_of_unknown hprogram, ?_⟩, fun s f h => ?_⟩
  · intro hfetch i a w hdecode haccess hrange
    rw [step_of_decode (not_halted hprogram) (fetch_inRange (inRange_iff.mpr hfetch)) hdecode]
    exact exec_of_dataAccess_outOfRange haccess hrange
  · obtain ⟨hrunning, hfault⟩ := step_fault h
    have hprogram : InProgram s := by
      by_contra hout
      rw [(halted_iff s).mpr hout] at hrunning
      cases hrunning
    refine ⟨hprogram, ?_⟩
    rcases hfault with hfetch | ⟨w, e, hfetch, hdecode, hf⟩ | ⟨w, i, hfetch, hdecode, hexec⟩
    · exact .inl (fetch_error hfetch)
    · obtain ⟨hrange, rfl⟩ := fetch_ok hfetch
      exact .inr (.inl ⟨hrange, unknownUnder_of_decodeWith_error hdecode, hf⟩)
    · obtain ⟨hrange, rfl⟩ := fetch_ok hfetch
      obtain ⟨a, w, haccess, hout, hf⟩ := exec_fault hexec
      refine .inr (.inr ⟨hrange, i, a, w, hdecode, haccess, fun hin => ?_, hf⟩)
      rw [inRange_iff.mpr hin] at hout
      cases hout

/-- Settles O40: of the three faults only that of an unknown word is an UnsupportedInstruction. -/
theorem unsupportedExactlyOnUnknownWords : Obligations.UnsupportedExactlyOnUnknownWords := by
  refine fun s hprogram hrange => ⟨fun h => ?_, step_of_unknown hprogram hrange⟩
  rcases (faultsAreTheseThreeInOrder.2 s _ h).2 with ⟨-, hf⟩ | ⟨-, hunknown, -⟩ | ⟨-, _, _, _, -, -, -, hf⟩
  · cases hf
  · exact hunknown
  · cases hf

/-! ## No refusal -/

theorem step_ne_refused (s : State) (r : Refusal) : step s ≠ .refused r := by
  unfold step
  split
  · simp
  · split
    · simp
    · split
      · simp
      · exact exec_ne_refused _ _ _

/-- Settles O43: an instruction that neither faults nor is refused completes, and its one fault is an access out of
range. -/
theorem everyInstructionCompletesInRange : Obligations.EveryInstructionCompletesInRange := by
  refine ⟨step_ne_refused, fun i s haccess => ?_⟩
  cases h : exec i s with
  | next t => exact ⟨t, rfl⟩
  | fault f =>
    obtain ⟨a, w, hsome, hout, -⟩ := exec_fault h
    rw [inRange_iff.mpr (haccess a w hsome)] at hout
    cases hout
  | refused r => exact absurd h (exec_ne_refused i s r)

/-! ## The engine state has no say (R29, R32, R344) -/

/-- A result with its next state changed. -/
def mapNext (f : State → State) : Result → Result
  | .next t => .next (f t)
  | .fault r => .fault r
  | .refused r => .refused r

/-- The registers, pc, memory and parameters of `s` with the engine state, clock and statistics of `e`. -/
def State.withEngine (s e : State) : State :=
  { e with regs := s.regs, pc := s.pc, mem := s.mem, params := s.params }

/-- One more instruction of a class in the statistics. -/
def State.counting (s : State) (k : Format) : State := { s with stats := s.stats.count k s.clock }

theorem retire_setReg_withEngine (s e : State) (d : RegIdx) (v : Word) (k : Format) (p : Word) :
    ((s.withEngine e).setReg d v).retire k p = ((s.setReg d v).retire k p).withEngine (e.counting k) := by
  unfold State.setReg
  split <;> rfl

theorem writeback_withEngine (s e : State) (k : Format) (d : RegIdx) (v : Word) :
    (s.withEngine e).writeback k d v = mapNext (·.withEngine (e.counting k)) (s.writeback k d v) :=
  congrArg Host.Outcome.next (retire_setReg_withEngine s e d v k _)

/-- The range check reads address, pc and parameters only. -/
theorem guardAccess_withEngine (s e : State) (a : Word) (w : AccessWidth) {ok ok' : Result} {f : State → State}
    (hok : ok' = mapNext f ok) : (s.withEngine e).guardAccess a w ok' = mapNext f (s.guardAccess a w ok) := by
  subst hok
  unfold State.guardAccess
  rw [apply_ite (mapNext f)]
  rfl

/-- With another engine state an instruction ends alike, and its next state differs in the engine state alone. -/
theorem exec_withEngine (i : Instr) (s e : State) :
    exec i (s.withEngine e) = mapNext (·.withEngine (e.counting (instrClass i))) (exec i s) := by
  cases i with
  | lw | lh | lb | lhu => exact guardAccess_withEngine s e _ _ (writeback_withEngine s e _ _ _)
  | sw | sh | sb => exact guardAccess_withEngine s e _ _ rfl
  | jr | beq | bne | j => rfl
  | jal => exact congrArg Host.Outcome.next (retire_setReg_withEngine s e _ _ _ _)
  | _ => exact writeback_withEngine s e _ _ _

/-- Settles O45: the second state is the first with another engine state. -/
theorem engineStateHasNoEffectOnResults : Obligations.EngineStateHasNoEffectOnResults := by
  intro i s v hregs hpc hmem hparams
  have hv : s.withEngine v = v := by
    unfold State.withEngine
    rw [← hregs, ← hpc, ← hmem, ← hparams]
  have hexec := exec_withEngine i s v
  rw [hv] at hexec
  rw [hexec]
  refine ⟨fun f => ?_, fun t h => ⟨_, congrArg (mapNext _) h, rfl, rfl, rfl⟩⟩
  cases exec i s <;> simp [mapNext]

/-- The mode and the pending fault replaced: what a fault leaves, and what the host sets. -/
def State.withMode (s : State) (md : Mode) (pending : Option Fault) : State :=
  { s with mode := md, pendingFault := pending }

theorem exec_withMode (i : Instr) (s : State) (md : Mode) (pending : Option Fault) :
    exec i (s.withMode md pending) = mapNext (·.withMode md pending) (exec i s) := by
  have hself : exec i s = mapNext (·.withEngine (s.counting (instrClass i))) (exec i s) := exec_withEngine i s s
  refine (exec_withEngine i s (s.withMode md pending)).trans ?_
  cases h : exec i s with
  | next t =>
    rw [h] at hself
    injection hself with ht
    exact congrArg Host.Outcome.next (congrArg (·.withMode md pending) ht.symm)
  | fault f => rfl
  | refused r => rfl

/-- Inside the program a step reads neither the mode nor the pending fault. -/
theorem step_withMode {s : State} (h : s.halted = false) (md : Mode) (pending : Option Fault) :
    step (s.withMode md pending) = mapNext (·.withMode md pending) (step s) := by
  have hhalted : (s.withMode md pending).halted = false := h
  have hfetch : (s.withMode md pending).fetch = s.fetch := rfl
  have hparams : (s.withMode md pending).params = s.params := rfl
  simp only [step, h, hhalted, hfetch, hparams, Bool.false_eq_true, if_false]
  cases s.fetch with
  | error f => rfl
  | ok w =>
    cases hdecode : decodeWith s.params.opcodeMap w with
    | error e => simp only [hdecode]; rfl
    | ok i => simp only [hdecode, exec_withMode]

/-- Settles O42: the state a fault leaves is the state before with another mode and pending fault, so its step is the
same. -/
theorem faultsCommitNothingAndRepeat : Obligations.FaultsCommitNothingAndRepeat := by
  intro s t f h
  rcases engineStep_cases h with ⟨-, -, hr⟩ | ⟨-, _, -, -, hr⟩ | ⟨g, hstep, rfl, hr⟩ | ⟨_, -, hr⟩
  · cases hr
  · cases hr
  · cases hr
    have hrepeat : step (s.recordFault f) = .fault f :=
      (step_withMode (step_fault hstep).1 .idle (some f)).trans (congrArg (mapNext _) hstep)
    refine ⟨rfl, ?_⟩
    rw [engineStep, hrepeat]
    rfl
  · cases hr

end Sys2Proof.Machine
end

section
/-! Proofs for 60_exceptions.md: statistics and elapsed time (R340 to R344), the engine's transitions (10_state.md
R29, R354) and the host's commands (R350 to R353). An engine step is taken apart by `engineStep_cases`, of which the
refusal never happens. -/

namespace Sys2Proof.Machine

/-! ## Statistics (R340 to R343) -/

theorem exec_counted {i : Instr} {s t : State} (h : exec i s = .next t) : Counted (instrClass i) s t := by
  obtain ⟨u, p, hu, rfl⟩ := exec_next h
  rcases hu with ⟨-, -, rfl⟩ | ⟨-, d, v, -, rfl⟩ | ⟨-, -, a, w, v, -, -, rfl⟩
  · exact counted_retire _ _ _ _ rfl rfl
  · exact counted_retire _ _ _ _ (by simp) (by simp)
  · exact counted_retire _ _ _ _ rfl rfl

/-- An engine step that executes no instruction to its end keeps all but the mode and the pending fault, and goes
Idle. -/
theorem engineStep_not_executed {s t : State} {r : Report} (h : engineStep s = (t, r))
    (hr : ∀ v : Snapshot, r ≠ .executed v) : ∃ pending, t = s.withMode .idle pending := by
  rcases engineStep_cases h with ⟨-, rfl, -⟩ | ⟨-, _, -, -, rfl⟩ | ⟨f, -, rfl, -⟩ | ⟨x, hx, -⟩
  · exact ⟨none, rfl⟩
  · exact absurd rfl (hr _)
  · exact ⟨some f, rfl⟩
  · exact absurd hx (step_ne_refused s x)

/-- Settles O49: `retire` counts once; the other ends of an engine step keep the statistics. -/
theorem statisticsCountCompletedInstructions : Obligations.StatisticsCountCompletedInstructions := by
  refine ⟨fun _ _ _ => exec_counted, fun s t r h hr => ?_⟩
  obtain ⟨_, rfl⟩ := engineStep_not_executed h hr
  rfl

/-- One more instruction of a class adds one product to the sum. -/
theorem CyclesAreTheSum.counted {s t : State} {k : Format} (hs : CyclesAreTheSum s) (hcount : Counted k s t)
    (hclock : t.clock = s.clock) : CyclesAreTheSum t := by
  obtain ⟨hR, hI, hJ, hcycles⟩ := hcount
  unfold CyclesAreTheSum at hs ⊢
  rw [hR, hI, hJ, hcycles, hclock, hs]
  cases k <;> simp <;> ring

/-- Settles O50: a completion counts nothing, an instruction counts its own cycles. -/
theorem cyclesStayTheSum : Obligations.CyclesStayTheSum := by
  refine ⟨by simp [CyclesAreTheSum, State.reset], fun s t hs h => ?_⟩
  rcases step_next h with ⟨-, rfl⟩ | ⟨-, w, i, -, -, hexec⟩
  · exact hs
  · obtain ⟨-, -, -, -, -, hclock, -⟩ := exec_engineKept hexec
    exact hs.counted (exec_counted hexec) hclock

theorem clock_wellFormed_iff {c : ClockConfig} : c.wellFormed = true ↔ 0 < c.clockHz := by
  simp [ClockConfig.wellFormed]

/-- Settles O51: the sum is divided by a frequency that is not 0, and a reconfiguration checks just that. -/
theorem elapsedTimeUsesTheCurrentClock : Obligations.ElapsedTimeUsesTheCurrentClock := by
  refine ⟨fun s hclock => ?_, fun s c hc => if_pos (clock_wellFormed_iff.mpr hc),
    fun s c hc => if_neg (mt clock_wellFormed_iff.mp hc)⟩
  have hpositive : s.clock.clockHz ≠ 0 := (clock_wellFormed_iff.mp hclock).ne'
  rw [State.elapsedTime, div_mul_cancel₀ _ hpositive]
  push_cast
  rfl

/-! ## The engine's mode (R29, R354) -/

/-- An instruction leaves the mode, so an engine step from Idle ends Idle. -/
theorem engineStep_mode_of_idle {s t : State} {r : Report} (h : engineStep s = (t, r)) (hidle : s.mode = .idle) :
    t.mode = .idle := by
  rcases engineStep_cases h with ⟨-, rfl, -⟩ | ⟨hrunning, u, hstep, rfl, -⟩ | ⟨_, -, rfl, -⟩ | ⟨x, hx, -⟩
  · rfl
  · obtain ⟨-, -, -, -, -, -, hmode | ⟨hout, -⟩⟩ := stepKeepsTheEngineState s u hstep
    · exact hmode.trans hidle
    · rw [(halted_iff s).mpr hout] at hrunning
      cases hrunning
  · rfl
  · exact absurd hx (step_ne_refused s x)

/-- The mode is in no report: a completion and a fault have none, and no snapshot shows it. -/
theorem engineStep_report_withMode (s : State) (md : Mode) (pending : Option Fault) :
    (engineStep (s.withMode md pending)).2 = (engineStep s).2 := by
  have hhalted : (s.withMode md pending).halted = s.halted := rfl
  cases h : s.halted with
  | true => simp only [engineStep, step_of_halted h, step_of_halted (hhalted.trans h), hhalted, h, if_true]
  | false =>
    simp only [engineStep, step_withMode h, hhalted, h, Bool.false_eq_true, if_false]
    cases step s <;> rfl

/-- Settles O54: each command reads the mode; the state a pause leaves is observed by the next cycle. -/
theorem engineModeTransitions : Obligations.EngineModeTransitions := by
  refine ⟨fun s hidle => ⟨?_, ?_, ?_, ?_⟩, fun s hrunning => ⟨?_, ?_, ?_, fun hpause => ?_⟩, fun s t r h hr => ?_,
    fun s md => engineStep_report_withMode s md s.pendingFault⟩
  · simp only [hostCommand, hidle]
  · simp only [hostCommand, hidle]
  · simp only [runCycle, hidle]
  · refine ⟨(engineStep s).1, (engineStep s).2, ?_, rfl, engineStep_mode_of_idle rfl hidle⟩
    simp only [hostCommand, hidle]
  · simp only [hostCommand, hrunning]
  · simp only [hostCommand, hrunning]
  · refine ⟨{ s with pauseRequested := true }, ?_, hrunning, ?_⟩
    · simp only [hostCommand, hrunning]
    · simp only [runCycle, hrunning, if_true]
  · simp only [runCycle, hrunning, hpause, Bool.false_eq_true, if_false]
  · obtain ⟨_, rfl⟩ := engineStep_not_executed h hr
    rfl

/-! ## After a fault (R350) -/

theorem hostCommand_skip_of_pending {s : State} {f : Fault} (h : s.pendingFault = some f) :
    hostCommand s .skip = .done s.skipped none := by simp only [hostCommand, h]

theorem hostCommand_stop_of_pending {s : State} {f : Fault} (h : s.pendingFault = some f) :
    hostCommand s .stop = .done s.answered none := by simp only [hostCommand, h]

/-- Settles O55: a faulting engine step remembers the fault, a preset leaves it pending, any other engine step clears
it. -/
theorem skipAfterFaultAddsFour : Obligations.SkipAfterFaultAddsFour := by
  refine ⟨fun s t f h => ?_, fun s hnone => ?_, fun s t r h hr => ?_⟩
  · have hpending : t.pendingFault = some f := by rw [(faultsCommitNothingAndRepeat s t f h).1]
    exact ⟨hostCommand_skip_of_pending hpending, hostCommand_stop_of_pending hpending, fun r v =>
      ⟨_, rfl, hostCommand_skip_of_pending ((t.setReg_pendingFault r v).trans hpending)⟩⟩
  · simp only [hostCommand, hnone, and_self]
  · rcases engineStep_cases h with ⟨-, rfl, -⟩ | ⟨-, _, -, rfl, -⟩ | ⟨f, -, -, rfl⟩ | ⟨x, hx, -⟩
    · rfl
    · rfl
    · exact absurd rfl (hr f)
    · exact absurd hx (step_ne_refused s x)

/-! ## The snapshot (R351) -/

theorem snapshot_regs (s : State) (r : RegIdx) : s.snapshot.regs[r.val]? = some (s.reg r) := by
  simp [State.snapshot]

/-- Settles O56: the snapshot of a completed step is that of the state the step recorded. -/
theorem snapshotShowsTheCompletedStep : Obligations.SnapshotShowsTheCompletedStep := by
  intro s t v h
  rcases engineStep_cases h with ⟨-, -, hr⟩ | ⟨-, u, -, rfl, hr⟩ | ⟨_, -, -, hr⟩ | ⟨_, -, hr⟩
  · cases hr
  · cases hr
    exact ⟨rfl, ⟨by simp [State.snapshot], snapshot_regs _⟩, rfl, rfl, rfl, rfl, rfl⟩
  · cases hr
  · cases hr

end Sys2Proof.Machine
end

section
/-! Proofs for 70_reset_and_hazards.md: the state after reset (R360), the program load (R361), and that no host
command breaks the invariant. A program is written word after word; each word stands until the end because the ones
after it lie above it in the address space, which the whole program does not exceed. -/

namespace Sys2Proof.Machine

/-! ## Reset (R360) -/

/-- A machine whose register cells are all zero reads zero. -/
theorem reg_of_regs_eq_zero {s : State} (h : s.regs = Vector.replicate 32 0) (r : RegIdx) : s.reg r = 0 := by
  simp [State.reg, h]

/-- Settles O52: the fields of the reset state. -/
theorem resetState : Obligations.ResetState :=
  ⟨reg_of_regs_eq_zero rfl, rfl, fun _ => rfl, rfl, rfl, rfl, rfl⟩

/-- The first frequency is positive whatever its OPEN numerator and denominator are (R9). -/
theorem configClock_wellFormed : Config.clock.wellFormed = true :=
  clock_wellFormed_iff.mpr (div_pos (Nat.cast_add_one_pos _) (Nat.cast_add_one_pos _))

/-- Settles O47: nothing is listed in memory, and the parameters are the default ones. -/
theorem resetMeetsTheInvariant : Obligations.ResetMeetsTheInvariant where
  memCanonical := reset_mem_wf
  memInBounds := fun _ h => nomatch h
  zeroIsZero := rfl
  paramsWellFormed := by decide
  clockWellFormed := configClock_wellFormed

/-! ## A written program (R361) -/

/-- The address behind a word, as a place counted from its start. -/
theorem add_four_mul (a : Word) (k : Nat) : a + 4 + BitVec.ofNat 32 (4 * k) = a + BitVec.ofNat 32 (4 * (k + 1)) := by
  rw [BitVec.add_assoc, Nat.mul_succ, Nat.add_comm, BitVec.ofNat_add]
  rfl

/-- What lies outside an access lies outside its first word and outside the rest behind it. -/
theorem not_inAccess_program_cons {a b : Word} {n : Nat} (h : ¬ inAccess a (4 * (n + 1)) b) :
    ¬ inAccess a 4 b ∧ ¬ inAccess (a + 4) (4 * n) b := by
  have hbehind : (b - (a + 4)).toNat = (2 ^ 32 - 4 + (b - a).toNat) % 2 ^ 32 := by
    rw [sub_add_eq_sub_sub, BitVec.toNat_sub]
    rfl
  unfold inAccess at *
  omega

theorem Memory.readByte_writeProgram_outside : ∀ (ws : List Word) {m : Memory} {a b : Word}, m.wf →
    ¬ inAccess a (4 * ws.length) b → (m.writeProgram a ws).readByte b = m.readByte b
  | [], _, _, _, _, _ => rfl
  | w :: ws, m, a, b, hm, hb => by
    obtain ⟨hfirst, hrest⟩ := not_inAccess_program_cons hb
    rw [Memory.writeProgram, Memory.readByte_writeProgram_outside ws (Memory.wf_writeWord hm a w) hrest]
    exact readByte_storeLow_outside (w := .word) hm w hfirst

/-- A word reads alike when its four bytes do. -/
theorem Memory.readWord_congr {m n : Memory} {a : Word}
    (h : ∀ k < 4, m.readByte (a + BitVec.ofNat 32 k) = n.readByte (a + BitVec.ofNat 32 k)) :
    m.readWord a = n.readWord a := by
  have hfirst : m.readByte a = n.readByte a := by simpa using h 0 (by decide)
  unfold Memory.readWord
  rw [hfirst, show m.readByte (a + 1) = _ from h 1 (by decide), show m.readByte (a + 2) = _ from h 2 (by decide),
    show m.readByte (a + 3) = _ from h 3 (by decide)]
  rfl

theorem not_inAccess_behind {a : Word} {n k : Nat} (hk : k < 4) (hn : 4 * (n + 1) ≤ 2 ^ 32) :
    ¬ inAccess (a + 4) (4 * n) (a + BitVec.ofNat 32 k) := by
  have hbefore : (a + BitVec.ofNat 32 k - (a + 4)).toNat = (2 ^ 32 - 4 + k) % 2 ^ 32 := by
    rw [add_sub_add_left_eq_sub, BitVec.toNat_sub, BitVec.toNat_ofNat, Nat.mod_eq_of_lt (hk.trans (by decide))]
    rfl
  unfold inAccess
  omega

/-- Word `k` of a program stands at `4k` from its start, if the program does not exceed the address space. -/
theorem Memory.readWord_writeProgram : ∀ (ws : List Word) {m : Memory} (a : Word), m.wf →
    4 * ws.length ≤ 2 ^ 32 → ∀ (k : Nat) (hk : k < ws.length),
    (m.writeProgram a ws).readWord (a + BitVec.ofNat 32 (4 * k)) = ws[k]
  | w :: ws, m, a, hm, hsize, 0, _ => by
    have hkept : ((m.writeWord a w).writeProgram (a + 4) ws).readWord a = (m.writeWord a w).readWord a :=
      Memory.readWord_congr fun _ hk =>
        Memory.readByte_writeProgram_outside ws (Memory.wf_writeWord hm a w) (not_inAccess_behind hk hsize)
    simpa [Memory.writeProgram] using hkept.trans (Memory.readWord_writeWord hm a w)
  | w :: ws, m, a, hm, hsize, k + 1, hk => by
    rw [Memory.writeProgram, ← add_four_mul]
    have hrest : 4 * ws.length ≤ 2 ^ 32 := by
      rw [List.length_cons] at hsize
      omega
    exact Memory.readWord_writeProgram ws (a + 4) (Memory.wf_writeWord hm a w) hrest k (Nat.lt_of_succ_lt_succ hk)

/-- The access of a program is that of its first word, then that of the rest behind it. -/
theorem accessInRange_program_cons {p : MemPolicy} {a : Word} {n : Nat}
    (h : accessInRange p a (4 * (n + 1)) = true) :
    accessInRange p a 4 = true ∧ accessInRange p (a + 4) (4 * n) = true := by
  cases p with
  | sparse => exact ⟨rfl, rfl⟩
  | fixed capacity =>
    simp only [accessInRange, decide_eq_true_eq] at h ⊢
    have hnext : (a + 4).toNat ≤ a.toNat + 4 := by
      rw [BitVec.toNat_add]
      exact Nat.mod_le _ _
    omega

theorem Memory.below_writeProgram {p : MemPolicy} : ∀ (ws : List Word) {m : Memory} (a : Word),
    m.below (addressBound p) → accessInRange p a (4 * ws.length) = true →
    (m.writeProgram a ws).below (addressBound p)
  | [], _, _, hm, _ => hm
  | w :: ws, _, a, hm, hrange =>
    have ⟨hfirst, hrest⟩ := accessInRange_program_cons hrange
    Memory.below_writeProgram ws (a + 4) (Memory.below_storeLow (w := .word) hm w hfirst) hrest

/-- The size check of a program load is the range check of the whole program (R361). -/
theorem fits_eq_accessInRange (p : Params) (n : Nat) :
    p.fits n = accessInRange p.memPolicy p.loadBase (4 * n) := by
  unfold Params.fits accessInRange
  cases p.memPolicy <;> rfl

/-! ## The load (R361) -/

theorem memory_nil_wf : Memory.wf [] := reset_mem_wf

/-- A program fits exactly when its access is in range. -/
theorem fits_iff (s : State) (n : Nat) : s.params.fits n = true ↔ InRange s s.params.loadBase (4 * n) := by
  rw [fits_eq_accessInRange]
  unfold accessInRange InRange
  cases s.params.memPolicy <;> simp

/-- Settles O53: the load checks that the program fits, and what it writes into empty memory stands. -/
theorem programLoadInstallsTheProgram : Obligations.ProgramLoadInstallsTheProgram := by
  refine fun s ws => ⟨fun cap hpolicy hlarge => ?_, fun hfits => ?_⟩
  · refine if_neg fun hfits => ?_
    have := (fits_iff s ws.length).mp hfits cap hpolicy
    omega
  · exact ⟨s.loaded ws, if_pos ((fits_iff s ws.length).mpr hfits),
      fun hsize => ⟨Memory.readWord_writeProgram ws s.params.loadBase memory_nil_wf hsize,
        fun _ ha => Memory.readByte_writeProgram_outside ws memory_nil_wf ha⟩,
      reg_of_regs_eq_zero rfl, rfl, rfl, rfl, rfl, rfl, rfl⟩

/-- Settles O60: the text is assembled first, and its words are loaded as the command of words loads them. -/
theorem textLoadsAsItsWordsOrNotAtAll : Obligations.TextLoadsAsItsWordsOrNotAtAll :=
  fun s lines => ⟨fun _ h => by simp only [hostCommand, h], fun _ h => by simp only [hostCommand, h]⟩

/-! ## The invariant under the host's commands -/

theorem Inv.loaded {s : State} (hs : Inv s) {ws : List Word} (hfits : s.params.fits ws.length = true) :
    Inv (s.loaded ws) where
  memCanonical := Memory.wf_writeProgram ws _ memory_nil_wf
  memInBounds := Memory.below_writeProgram ws _ (fun _ h => nomatch h) (fits_eq_accessInRange _ _ ▸ hfits)
  zeroIsZero := rfl
  paramsWellFormed := hs.paramsWellFormed
  clockWellFormed := hs.clockWellFormed

theorem Inv.after_hostLoad {s t : State} (hs : Inv s) {ws : List Word} {r : Option Report}
    (h : hostLoad s ws = .done t r) : Inv t := by
  unfold hostLoad at h
  split at h <;> cases h
  exact hs.loaded ‹_›

theorem Inv.after_engineStep {s : State} (hs : Inv s) : Inv (engineStep s).1 := by
  rcases engineStep_cases (Prod.eta (engineStep s)).symm with
    ⟨-, ht, -⟩ | ⟨-, u, hstep, ht, -⟩ | ⟨f, -, ht, -⟩ | ⟨x, hx, -⟩
  · rw [ht]
    exact hs.congr rfl rfl rfl rfl
  · rw [ht]
    exact (hs.step hstep).congr rfl rfl rfl rfl
  · rw [ht]
    exact hs.congr rfl rfl rfl rfl
  · exact absurd hx (step_ne_refused s x)

/-- Settles O48, command by command: a load, a step, a register write or a checked clock; the others change only what
the invariant does not speak of. -/
theorem hostCommandsKeepTheInvariant : Obligations.HostCommandsKeepTheInvariant := by
  intro s t c r hs h
  cases c with
  | load ws => exact hs.after_hostLoad h
  | loadText lines =>
    simp only [hostCommand] at h
    split at h
    · cases h
    · exact hs.after_hostLoad h
  | preset d v =>
    cases h
    exact hs.setReg d v
  | singleStep =>
    simp only [hostCommand] at h
    split at h <;> cases h
    exact hs.after_engineStep
  | reconfigure c =>
    simp only [hostCommand] at h
    split at h <;> cases h
    exact { hs with clockWellFormed := ‹_› }
  | start | pause | skip | stop =>
    simp only [hostCommand] at h
    split at h <;> cases h
    exact hs.congr rfl rfl rfl rfl
  | readSnapshot => cases h

end Sys2Proof.Machine
end

section
/-! Proofs for the addresses of 43_load_store.md (R220) and for the label operands of 45_assembler.md (R290, R291):
the number the assembler puts in the field is the one the target rule of the instruction undoes. -/

namespace Sys2Proof.Machine

/-- Settles O20: the offset is added as a word, whose signed value is the immediate's. -/
theorem effectiveAddressIsBasePlusSignedOffset : Obligations.EffectiveAddressIsBasePlusSignedOffset := by
  intro s rs imm
  rw [BitVec.ofInt_add, BitVec.ofInt_natCast, BitVec.ofNat_toNat, BitVec.setWidth_eq]
  rfl

/-- An offset within the 16-bit reach is the signed value of its field (R290). -/
theorem immOfInt_toInt {v : Int} (hlow : -32768 ≤ v) (hhigh : v ≤ 32767) : (immOfInt v).toInt = v := by
  rw [immOfInt, BitVec.toInt_ofInt]
  exact Int.bmod_eq_of_le (by omega) (by omega)

/-- Settles O58: both addresses are multiples of 4, so the quotient times 4 is their distance. -/
theorem branchToALabelReachesIt : Obligations.BranchToALabelReachesIt := by
  intro address current haddress hcurrent halign halign' hlow hhigh
  have htarget :
      (((BitVec.ofNat 32 current).toNat : Int) + 4 + ((address : Int) - (current + 4)) / 4 * 4) = address := by
    rw [BitVec.toNat_ofNat, Nat.mod_eq_of_lt hcurrent]
    omega
  rw [branchTarget_eq_ofInt, branchOffset, immOfInt_toInt hlow hhigh, htarget, BitVec.ofInt_natCast]

/-- The field holds the address's word index within its region of 2^26 words (R291). -/
theorem jumpField_toNat (address : Nat) : (jumpField address).toNat = address / 4 % 2 ^ 26 := by
  rw [jumpField, BitVec.toNat_ofNat, Nat.shiftRight_eq_div_pow]

/-- Settles O59: the region's number and the word index within it compose the address. -/
theorem jumpToALabelReachesIt : Obligations.JumpToALabelReachesIt := by
  intro pc address halign haddress hregion
  rw [jumpTarget_eq_ofNat, jumpField_toNat, hregion]
  congr 1
  omega

end Sys2Proof.Machine
end

section
/-! Proofs for the operands of 45_assembler.md: what the assembler reads from a token that spells a register (R286)
or a number (R288), and how it cuts a text into tokens (R284). -/

namespace Sys2Proof.Machine

/-! ## Characters of a token and of a line -/

/-- A character that neither begins a comment nor ends a label (R281, R282). -/
def isLineChar (c : Char) : Bool := c != '#' && c != ':'

/-- A character that stands inside a token: one of a line that is no delimiter (R284). -/
def isTokenChar (c : Char) : Bool := isLineChar c && !isDelimiter c

/-- A token: at least one character, and each stands inside a token. -/
abbrev IsToken (t : Text) : Prop := t ≠ [] ∧ t.all isTokenChar = true

theorem isTokenChar_iff {c : Char} : isTokenChar c = true ↔ isLineChar c = true ∧ isDelimiter c = false := by
  simp [isTokenChar]

theorem isSpace_of_not_isDelimiter {c : Char} (h : isDelimiter c = false) : isSpace c = false := by
  simp only [isDelimiter, Bool.or_eq_false_iff] at h
  exact h.1.1.1

theorem IsToken.cons {c : Char} {t : Text} (hc : isTokenChar c = true) (ht : IsToken t) : IsToken (c :: t) :=
  ⟨List.cons_ne_nil c t, by rw [List.all_cons, hc, ht.2]; rfl⟩

theorem IsToken.tokenChars {t : Text} (ht : IsToken t) : ∀ c ∈ t, isTokenChar c = true := List.all_eq_true.mp ht.2

theorem IsToken.lineChars {t : Text} (ht : IsToken t) : ∀ c ∈ t, isLineChar c = true :=
  fun c hc => (isTokenChar_iff.mp (ht.tokenChars c hc)).1

theorem IsToken.not_isDelimiter {t : Text} (ht : IsToken t) : ∀ c ∈ t, isDelimiter c = false :=
  fun c hc => (isTokenChar_iff.mp (ht.tokenChars c hc)).2

theorem IsToken.not_mem {t : Text} (ht : IsToken t) {d : Char} (hd : isTokenChar d = false) : d ∉ t := by
  intro hmem
  rw [ht.tokenChars d hmem] at hd
  cases hd

/-! ## Cutting a text into tokens (R284) -/

/-- Characters that are no delimiters are added to the current run. -/
theorem tokensFrom_append {t : Text} (ht : ∀ c ∈ t, isDelimiter c = false) (run rest : Text) :
    tokensFrom run (t ++ rest) = tokensFrom (t.reverse ++ run) rest := by
  induction t generalizing run with
  | nil => rfl
  | cons c t ih =>
    obtain ⟨hc, ht⟩ := List.forall_mem_cons.mp ht
    simp [tokensFrom, hc, ih ht]

theorem tokens_delimiter_cons {d : Char} (hd : isDelimiter d = true) (rest : Text) :
    tokens (d :: rest) = tokens rest := by
  simp [tokens, tokensFrom, hd]

/-- A token ends at the next delimiter. -/
theorem tokens_append_delimiter {t : Text} (ht : IsToken t) {d : Char} (hd : isDelimiter d = true) (rest : Text) :
    tokens (t ++ d :: rest) = t :: tokens rest := by
  rw [tokens, tokensFrom_append ht.not_isDelimiter]
  simp [tokensFrom, hd, ht.1, tokens]

theorem tokens_token {t : Text} (ht : IsToken t) : tokens t = [t] := by
  rw [tokens, ← List.append_nil t, tokensFrom_append ht.not_isDelimiter]
  simp [tokensFrom, ht.1]

/-! ## Numbers (R288) -/

/-- What a sequence of digits is worth, one part after the other. -/
theorem digitsValue_append (base : Nat) (digit : Char → Option Nat) (acc : Nat) (t u : Text) :
    digitsValue base digit acc (t ++ u) = (digitsValue base digit acc t).bind (digitsValue base digit · u) := by
  induction t generalizing acc with
  | nil => rfl
  | cons c t ih =>
    simp only [List.cons_append, digitsValue]
    cases digit c with
    | none => rfl
    | some d => exact ih _

section
variable {base : Nat} (hbase : 1 < base)
include hbase

/-- The digits of a number are worth that number. -/
theorem digitsValue_toDigits {digit : Char → Option Nat} (hdigit : ∀ d < base, digit (Nat.digitChar d) = some d)
    (n : Nat) : digitsValue base digit 0 (Nat.toDigits base n) = some n := by
  induction n using Nat.strongRecOn with
  | _ n ih =>
    rcases Nat.lt_or_ge n base with hlt | hge
    · simp [Nat.toDigits_of_lt_base hlt, digitsValue, hdigit n hlt]
    · have hquotient := ih (n / base) (Nat.div_lt_self (by omega) hbase)
      have hlast : digit (Nat.digitChar (n % base)) = some (n % base) := hdigit _ (Nat.mod_lt _ (by omega))
      rw [Nat.toDigits_of_base_le hbase hge, digitsValue_append, hquotient, Option.bind_some]
      simp only [digitsValue, hlast, Nat.div_add_mod']

theorem mem_toDigits {n : Nat} {c : Char} (h : c ∈ Nat.toDigits base n) : ∃ d < base, c = Nat.digitChar d := by
  induction n using Nat.strongRecOn with
  | _ n ih =>
    rcases Nat.lt_or_ge n base with hlt | hge
    · rw [Nat.toDigits_of_lt_base hlt, List.mem_singleton] at h
      exact ⟨n, hlt, h⟩
    · rw [Nat.toDigits_of_base_le hbase hge, List.mem_append, List.mem_singleton] at h
      rcases h with h | h
      · exact ih (n / base) (Nat.div_lt_self (by omega) hbase) h
      · exact ⟨n % base, Nat.mod_lt _ (by omega), h⟩

/-- Up to hexadecimal, digits are characters of a token, and none is the `$` of a register. -/
theorem isToken_toDigits (hhex : base ≤ 16) (n : Nat) :
    IsToken (Nat.toDigits base n) ∧ '$' ∉ Nat.toDigits base n := by
  have hdigits : ∀ d < 16, isTokenChar (Nat.digitChar d) = true ∧ '$' ≠ Nat.digitChar d := by decide
  refine ⟨⟨Nat.toDigits_ne_nil, List.all_eq_true.mpr fun c hc => ?_⟩, fun hc => ?_⟩
  · obtain ⟨d, hd, rfl⟩ := mem_toDigits hbase hc
    exact (hdigits d (hd.trans_le hhex)).1
  · obtain ⟨d, hd, hdollar⟩ := mem_toDigits hbase hc
    exact (hdigits d (hd.trans_le hhex)).2 hdollar

end

theorem decimalValue_toDigits (n : Nat) : decimalValue (Nat.toDigits 10 n) = some n := by
  have hdigit : ∀ d < 10, decimalDigit (Nat.digitChar d) = some d := by decide
  simp [decimalValue, Nat.toDigits_ne_nil, digitsValue_toDigits (by decide) hdigit]

theorem hexValue_toDigits (n : Nat) : hexValue (Nat.toDigits 16 n) = some n := by
  have hdigit : ∀ d < 16, hexDigit (Nat.digitChar d) = some d := by decide
  simp [hexValue, Nat.toDigits_ne_nil, digitsValue_toDigits (by decide) hdigit]

/-- A run of decimal digits has neither the `0x` nor the `-` of the other two forms. -/
theorem literal_of_decimalValue {t : Text} {n : Nat} (h : decimalValue t = some n) : literal t = some (n : Int) := by
  unfold literal
  split
  · simp [decimalValue, digitsValue, decimalDigit] at h
  · simp [decimalValue, digitsValue, decimalDigit] at h
  · rw [h]
    rfl

theorem SpellsNumber.isToken {t : Text} {v : Int} (h : SpellsNumber t v) : IsToken t := by
  have hdecimal (n : Nat) := (isToken_toDigits (base := 10) (by decide) (by decide) n).1
  have hhex (n : Nat) := (isToken_toDigits (base := 16) (by decide) (by decide) n).1
  obtain ⟨n, ⟨-, rfl | rfl⟩ | ⟨-, rfl⟩⟩ := h
  · exact hdecimal n
  · exact ((hhex n).cons (by decide)).cons (by decide)
  · exact (hdecimal n).cons (by decide)

theorem SpellsNumber.literal_eq {t : Text} {v : Int} (h : SpellsNumber t v) : literal t = some v := by
  obtain ⟨n, ⟨rfl, rfl | rfl⟩ | ⟨rfl, rfl⟩⟩ := h
  · exact literal_of_decimalValue (decimalValue_toDigits n)
  · exact congrArg (Option.map Int.ofNat) (hexValue_toDigits n)
  · simp [literal, decimalValue_toDigits]

theorem SpellsNumber.parseLiteral_eq {t : Text} {v : Int} (h : SpellsNumber t v) : parseLiteral t = .ok v := by
  rw [parseLiteral, h.literal_eq]

/-! ## Registers (R286) -/

theorem registerOfNat_val (r : RegIdx) : registerOfNat r.val = some r := dif_pos r.isLt

/-- A name is no number and stands at its index among the assembler's names. -/
theorem registerOfName_of_mem_table {row : Nat × String} (h : row ∈ registerNameTable) :
    registerOfName row.2.toList = registerOfNat row.1 := by
  have hnumber : ∀ row ∈ registerNameTable, decimalValue row.2.toList = none := by decide
  have hindex : registerNameTable.map (fun row => registerNames.idxOf row.2.toList) =
      registerNameTable.map Prod.fst := by decide
  simp only [registerOfName, hnumber row h, List.map_inj_left.mp hindex row h]

/-- An index or a name, without its `$`: a token that the assembler reads as its register. -/
theorem registerOfName_of_spelled {u : Text} {r : RegIdx} (h : u = Nat.toDigits 10 r.val ∨
    ∃ name : String, (r.val, name) ∈ registerNameTable ∧ u = name.toList) :
    registerOfName u = some r ∧ IsToken u ∧ '$' ∉ u := by
  rcases h with rfl | ⟨name, hname, rfl⟩
  · refine ⟨?_, isToken_toDigits (by decide) (by decide) r.val⟩
    simp only [registerOfName, decimalValue_toDigits, registerOfNat_val]
  · have htoken : ∀ row ∈ registerNameTable, IsToken row.2.toList := by decide
    have hdollar : ∀ row ∈ registerNameTable, '$' ∉ row.2.toList := by decide
    exact ⟨(registerOfName_of_mem_table hname).trans (registerOfNat_val r), htoken _ hname, hdollar _ hname⟩

theorem SpellsRegister.isToken {t : Text} {r : RegIdx} (h : SpellsRegister t r) : IsToken t := by
  obtain ⟨u, ht, hu⟩ := h
  obtain ⟨-, htoken, -⟩ := registerOfName_of_spelled hu
  rcases ht with rfl | rfl
  · exact htoken
  · exact htoken.cons (by decide)

theorem SpellsRegister.parseRegister_eq {t : Text} {r : RegIdx} (h : SpellsRegister t r) :
    parseRegister t = .ok r := by
  obtain ⟨u, ht, hu⟩ := h
  obtain ⟨hread, -, hdollar⟩ := registerOfName_of_spelled hu
  rcases ht with rfl | rfl
  · unfold parseRegister
    split <;> rename_i hmatch <;> split at hmatch
    · exact absurd List.mem_cons_self hdollar
    · cases hread.symm.trans hmatch
      rfl
    · exact absurd List.mem_cons_self hdollar
    · cases hread.symm.trans hmatch
  · simp only [parseRegister, hread]

end Sys2Proof.Machine
end

section
/-! Proofs for the texts of 45_assembler.md (R280 to R298): a line that spells an instruction is one instruction text
with no label (R281, R282), the assembler reads that instruction from it (R284 to R293), and its word decodes to it
again (R97). The lines fall into six shapes by their operands; a mnemonic's shape is where `parseInstr` sends its
line. -/

namespace Sys2Proof.Machine

/-! ## Lines without label and comment (R281, R282) -/

/-- A text with no comment and no label in it, and nothing to trim at its end. -/
structure IsLine (t : Text) : Prop where
  nonempty : t ≠ []
  chars : ∀ c ∈ t, isLineChar c = true
  lastIsNoSpace : ∀ c ∈ t.getLast?, isSpace c = false

theorem IsToken.isLine {t : Text} (ht : IsToken t) : IsLine t where
  nonempty := ht.1
  chars := ht.lineChars
  lastIsNoSpace := fun c hc => isSpace_of_not_isDelimiter (ht.not_isDelimiter c (List.mem_of_getLast? hc))

theorem IsLine.append_left {u t : Text} (hu : ∀ c ∈ u, isLineChar c = true) (ht : IsLine t) : IsLine (u ++ t) where
  nonempty := by simp [ht.nonempty]
  chars := by
    intro c hc
    rcases List.mem_append.mp hc with hc | hc
    · exact hu c hc
    · exact ht.chars c hc
  lastIsNoSpace := by
    rw [List.getLast?_append_of_ne_nil _ ht.nonempty]
    exact ht.lastIsNoSpace

theorem IsLine.cons {c : Char} {t : Text} (hc : isLineChar c = true) (ht : IsLine t) : IsLine (c :: t) :=
  ht.append_left (u := [c]) (by simpa using hc)

theorem trimLeft_of_head {t : Text} (h : ∀ c ∈ t.head?, isSpace c = false) : trimLeft t = t := by
  cases t with
  | nil => rfl
  | cons c t => simp [trimLeft, h c rfl]

/-- A line that begins with a mnemonic stays as it is when it is cleaned. -/
theorem cleanLine_of_isLine {t : Text} (ht : IsLine t) (hfirst : ∀ c ∈ t.head?, isSpace c = false) :
    cleanLine t = t := by
  have hcomment : t.takeWhile (· != '#') = t := by
    rw [List.takeWhile_eq_self_iff]
    intro c hc
    exact (Bool.and_eq_true_iff.mp (ht.chars c hc)).1
  have hlast : trimLeft t.reverse = t.reverse := trimLeft_of_head (by simpa using ht.lastIsNoSpace)
  rw [cleanLine, hcomment, trimText, trimLeft_of_head hfirst, hlast, List.reverse_reverse]

theorem splitLine_of_isLine {t : Text} (ht : IsLine t) (hfirst : ∀ c ∈ t.head?, isSpace c = false) :
    splitLine t = .ok ⟨none, some t⟩ := by
  have hcolon : ':' ∉ t := fun hc => absurd (ht.chars _ hc) (by decide)
  simp [splitLine, cleanLine_of_isLine ht hfirst, hcolon, codeOf, ht.nonempty]

/-! ## A line of each shape (R284 to R293) -/

/-- `t` is a whole instruction text, which the assembler reads as `i` at any address and with any labels. -/
structure Reads (t : Text) (i : Instr) : Prop where
  split : splitLine t = .ok ⟨none, some t⟩
  parse : ∀ labels current, parseInstr labels current t = .ok i

theorem tokens_threeOperands {a b c : Text} (ha : IsToken a) (hb : IsToken b) (hc : IsToken c) :
    tokens (' ' :: (a ++ ',' :: ' ' :: (b ++ ',' :: ' ' :: c))) = [a, b, c] := by
  rw [tokens_delimiter_cons rfl, tokens_append_delimiter ha rfl, tokens_delimiter_cons rfl,
    tokens_append_delimiter hb rfl, tokens_delimiter_cons rfl, tokens_token hc]

/-- Characters up to the first `d`. -/
theorem takeWhile_append_cons {u : Text} {d : Char} (hu : d ∉ u) (rest : Text) :
    (u ++ d :: rest).takeWhile (· != d) = u := by
  have hall : ∀ c ∈ u, (c != d) = true := fun c hc => bne_iff_ne.mpr fun hcd => hu (hcd ▸ hc)
  rw [List.takeWhile_append_of_pos hall]
  simp

/-- A text with one pair of parentheses is cut at them (R292). -/
theorem splitParens_append {before inside rest : Text} (hopen : '(' ∉ before) (hclose : ')' ∉ before)
    (hopen' : '(' ∉ inside) (hclose' : ')' ∉ inside) :
    splitParens (before ++ '(' :: (inside ++ ')' :: rest)) = some (before, inside, rest) := by
  simp [splitParens, takeWhile_append_cons hopen, takeWhile_append_cons hclose', hclose, hopen']

/-- The operands of a load or store: `rt` and the offset before the pair, the base inside, nothing after (R292). -/
theorem splitParens_memory {a off b : Text} (ha : IsToken a) (hoff : IsToken off) (hb : IsToken b) :
    splitParens (' ' :: (a ++ ',' :: ' ' :: (off ++ '(' :: (b ++ [')'])))) =
      some (' ' :: (a ++ ',' :: ' ' :: off), b, []) := by
  have houtside : ∀ d, isTokenChar d = false → d ≠ ' ' → d ≠ ',' → d ∉ ' ' :: (a ++ ',' :: ' ' :: off) := by
    intro d hd hblank hcomma
    simp [ha.not_mem hd, hoff.not_mem hd, hblank, hcomma]
  have hsplit := splitParens_append (rest := []) (houtside '(' rfl (by decide) (by decide))
    (houtside ')' rfl (by decide) (by decide)) (hb.not_mem (d := '(') rfl) (hb.not_mem (d := ')') rfl)
  simpa using hsplit

theorem parseMem_eq {a off b line : Text} {x y : RegIdx} {v : Int} (k : IMnem) (ha : SpellsRegister a x)
    (hoff : SpellsNumber off v) (hb : SpellsRegister b y) :
    parseMem line k (' ' :: (a ++ ',' :: ' ' :: (off ++ '(' :: (b ++ [')'])))) = .ok (iInstr k y x (immOfInt v)) := by
  have hbefore : tokens (' ' :: (a ++ ',' :: ' ' :: off)) = [a, off] := by
    rw [tokens_delimiter_cons rfl, tokens_append_delimiter ha.isToken rfl, tokens_delimiter_cons rfl,
      tokens_token hoff.isToken]
  simp only [parseMem, splitParens_memory ha.isToken hoff.isToken hb.isToken, hbefore, tokens_token hb.isToken,
    ha.parseRegister_eq, hb.parseRegister_eq, parseImm, hoff.parseLiteral_eq]
  rfl

section
variable {name : String} (hname : IsToken name.toList)
include hname

/-- A mnemonic, a blank and its operands are an instruction text. -/
theorem reads_of_operands {operands : Text} {i : Instr} (hline : IsLine operands)
    (hparse : ∀ labels current, parseInstr labels current (name.toList ++ ' ' :: operands) = .ok i) :
    Reads (name.toList ++ ' ' :: operands) i := by
  refine ⟨splitLine_of_isLine (IsLine.append_left hname.lineChars (hline.cons (by decide))) fun c hc => ?_, hparse⟩
  rw [List.head?_append_of_ne_nil _ hname.1] at hc
  exact isSpace_of_not_isDelimiter (hname.not_isDelimiter c (List.mem_of_head? hc))

/-- `m a, b, c`: the three tokens reach the mnemonic's operand rule. -/
theorem reads_threeOperands (rule : LabelTable → Nat → Text → List Text → Except ParseError Instr)
    (hrule : ∀ labels current operands, parseInstr labels current (name.toList ++ ' ' :: operands) =
      rule labels current (name.toList ++ ' ' :: operands) (tokens (' ' :: operands)))
    {a b c : Text} (ha : IsToken a) (hb : IsToken b) (hc : IsToken c) {i : Instr}
    (hread : ∀ labels current line, rule labels current line [a, b, c] = .ok i) :
    Reads (threeOperands name a b c) i := by
  have htext : threeOperands name a b c = name.toList ++ ' ' :: (a ++ ',' :: ' ' :: (b ++ ',' :: ' ' :: c)) := by
    simp [threeOperands]
  have hbc : IsLine (b ++ ',' :: ' ' :: c) :=
    .append_left hb.lineChars ((hc.isLine.cons (by decide)).cons (by decide))
  rw [htext]
  refine reads_of_operands hname (.append_left ha.lineChars ((hbc.cons (by decide)).cons (by decide)))
    fun labels current => ?_
  rw [hrule, tokens_threeOperands ha hb hc, hread]

/-- `m rd, rs, rt`. -/
theorem reads_registers {k : RMnem} (hrule : ∀ labels current operands,
      parseInstr labels current (name.toList ++ ' ' :: operands) =
        parseR3 (name.toList ++ ' ' :: operands) k (tokens (' ' :: operands)))
    {t : Text} {x y z : RegIdx} (h : SpellsRegisters t name x y z) : Reads t (rInstr k y z x 0) := by
  obtain ⟨a, b, c, ha, hb, hc, rfl⟩ := h
  refine reads_threeOperands hname (fun _ _ line => parseR3 line k) hrule ha.isToken hb.isToken hc.isToken
    fun _ _ _ => ?_
  rw [parseR3, ha.parseRegister_eq, hb.parseRegister_eq, hc.parseRegister_eq]
  rfl

/-- `m rd, rt, shamt`. -/
theorem reads_shift {k : RMnem} (hrule : ∀ labels current operands,
      parseInstr labels current (name.toList ++ ' ' :: operands) =
        parseShift (name.toList ++ ' ' :: operands) k (tokens (' ' :: operands)))
    {t : Text} {x y : RegIdx} {sa : Shamt} (h : SpellsWithNumber t name x y sa) : Reads t (rInstr k 0 y x sa) := by
  obtain ⟨a, b, c, v, ha, hb, hc, rfl, rfl⟩ := h
  refine reads_threeOperands hname (fun _ _ line => parseShift line k) hrule ha.isToken hb.isToken hc.isToken
    fun _ _ _ => ?_
  rw [parseShift, ha.parseRegister_eq, hb.parseRegister_eq, parseShamt, hc.parseLiteral_eq]
  rfl

/-- `m rt, rs, imm`. -/
theorem reads_immediate {k : IMnem} (hrule : ∀ labels current operands,
      parseInstr labels current (name.toList ++ ' ' :: operands) =
        parseI (name.toList ++ ' ' :: operands) k (tokens (' ' :: operands)))
    {t : Text} {x y : RegIdx} {imm : Imm} (h : SpellsWithNumber t name x y imm) : Reads t (iInstr k y x imm) := by
  obtain ⟨a, b, c, v, ha, hb, hc, rfl, rfl⟩ := h
  refine reads_threeOperands hname (fun _ _ line => parseI line k) hrule ha.isToken hb.isToken hc.isToken
    fun _ _ _ => ?_
  rw [parseI, ha.parseRegister_eq, hb.parseRegister_eq, parseImm, hc.parseLiteral_eq]
  rfl

/-- `m rs, rt, offset`: a number is no label (R294). -/
theorem reads_branch {k : IMnem} (hrule : ∀ labels current operands,
      parseInstr labels current (name.toList ++ ' ' :: operands) =
        parseBr labels current (name.toList ++ ' ' :: operands) k (tokens (' ' :: operands)))
    {t : Text} {x y : RegIdx} {imm : Imm} (h : SpellsWithNumber t name x y imm) : Reads t (iInstr k x y imm) := by
  obtain ⟨a, b, c, v, ha, hb, hc, rfl, rfl⟩ := h
  refine reads_threeOperands hname (fun labels current line => parseBr labels current line k) hrule
    ha.isToken hb.isToken hc.isToken fun _ _ _ => ?_
  rw [parseBr, ha.parseRegister_eq, hb.parseRegister_eq, parseBranch, hc.literal_eq]
  rfl

/-- `m rt, imm(rs)`. -/
theorem reads_memory {k : IMnem} (hrule : ∀ labels current operands,
      parseInstr labels current (name.toList ++ ' ' :: operands) =
        parseMem (name.toList ++ ' ' :: operands) k (' ' :: operands))
    {t : Text} {x y : RegIdx} {imm : Imm} (h : SpellsMemory t name x y imm) : Reads t (iInstr k y x imm) := by
  obtain ⟨a, off, b, v, ha, hoff, hb, rfl, rfl⟩ := h
  have htext : name.toList ++ [' '] ++ a ++ [',', ' '] ++ off ++ ['('] ++ b ++ [')'] =
      name.toList ++ ' ' :: (a ++ ',' :: ' ' :: (off ++ '(' :: (b ++ [')']))) := by simp
  have hclose : IsLine [')'] := ⟨List.cons_ne_nil _ _, List.forall_mem_singleton.mpr rfl, by simp [isSpace]⟩
  have hbase : IsLine (off ++ '(' :: (b ++ [')'])) :=
    .append_left hoff.isToken.lineChars ((hclose.append_left hb.isToken.lineChars).cons rfl)
  rw [htext]
  refine reads_of_operands hname (.append_left ha.isToken.lineChars ((hbase.cons rfl).cons rfl))
    fun labels current => ?_
  rw [hrule, parseMem_eq k ha hoff hb]
  rfl

/-- `m a`: the one token reaches the mnemonic's operand rule. -/
theorem reads_oneOperand (rule : LabelTable → Nat → Text → List Text → Except ParseError Instr)
    (hrule : ∀ labels current operands, parseInstr labels current (name.toList ++ ' ' :: operands) =
      rule labels current (name.toList ++ ' ' :: operands) (tokens (' ' :: operands)))
    {a : Text} (ha : IsToken a) {i : Instr} (hread : ∀ labels current line, rule labels current line [a] = .ok i) :
    Reads (name.toList ++ [' '] ++ a) i := by
  rw [List.append_assoc, List.singleton_append]
  refine reads_of_operands hname ha.isLine fun labels current => ?_
  rw [hrule, tokens_delimiter_cons rfl, tokens_token ha, hread]

/-- `m target`: a number is no label (R294). -/
theorem reads_jump {k : JMnem} (hrule : ∀ labels current operands,
      parseInstr labels current (name.toList ++ ' ' :: operands) =
        parseJ labels (name.toList ++ ' ' :: operands) k (tokens (' ' :: operands)))
    {t : Text} {target : Target} (h : SpellsJump t name target) : Reads t (jInstr k target) := by
  obtain ⟨a, v, ha, rfl, rfl⟩ := h
  refine reads_oneOperand hname (fun labels _ line => parseJ labels line k) hrule ha.isToken fun _ _ _ => ?_
  rw [parseJ, parseJump, ha.literal_eq]
  rfl

end

/-- `jr rs`. -/
theorem reads_jr {a : Text} {rs : RegIdx} (ha : SpellsRegister a rs) :
    Reads ("jr".toList ++ [' '] ++ a) (.jr rs) := by
  refine reads_oneOperand (by decide) (fun _ _ line => parseR1 line .jr) (fun _ _ _ => rfl) ha.isToken fun _ _ _ => ?_
  rw [parseR1, ha.parseRegister_eq]
  rfl

/-- A line that spells an instruction reads as that instruction, shape by shape. -/
theorem reads_of_spells {t : Text} : ∀ {i : Instr}, Spells t i → Reads t i
  | .add _ _ _, h => reads_registers (k := .add) (by decide) (fun _ _ _ => rfl) h
  | .sub _ _ _, h => reads_registers (k := .sub) (by decide) (fun _ _ _ => rfl) h
  | .and _ _ _, h => reads_registers (k := .and) (by decide) (fun _ _ _ => rfl) h
  | .or _ _ _, h => reads_registers (k := .or) (by decide) (fun _ _ _ => rfl) h
  | .nor _ _ _, h => reads_registers (k := .nor) (by decide) (fun _ _ _ => rfl) h
  | .sll _ _ _, h => reads_shift (k := .sll) (by decide) (fun _ _ _ => rfl) h
  | .srl _ _ _, h => reads_shift (k := .srl) (by decide) (fun _ _ _ => rfl) h
  | .slt _ _ _, h => reads_registers (k := .slt) (by decide) (fun _ _ _ => rfl) h
  | .sltu _ _ _, h => reads_registers (k := .sltu) (by decide) (fun _ _ _ => rfl) h
  | .jr _, ⟨_, ha, ht⟩ => ht ▸ reads_jr ha
  | .addi _ _ _, h => reads_immediate (k := .addi) (by decide) (fun _ _ _ => rfl) h
  | .andi _ _ _, h => reads_immediate (k := .andi) (by decide) (fun _ _ _ => rfl) h
  | .ori _ _ _, h => reads_immediate (k := .ori) (by decide) (fun _ _ _ => rfl) h
  | .slti _ _ _, h => reads_immediate (k := .slti) (by decide) (fun _ _ _ => rfl) h
  | .sltiu _ _ _, h => reads_immediate (k := .sltiu) (by decide) (fun _ _ _ => rfl) h
  | .lw _ _ _, h => reads_memory (k := .lw) (by decide) (fun _ _ _ => rfl) h
  | .lh _ _ _, h => reads_memory (k := .lh) (by decide) (fun _ _ _ => rfl) h
  | .lb _ _ _, h => reads_memory (k := .lb) (by decide) (fun _ _ _ => rfl) h
  | .lhu _ _ _, h => reads_memory (k := .lhu) (by decide) (fun _ _ _ => rfl) h
  | .sw _ _ _, h => reads_memory (k := .sw) (by decide) (fun _ _ _ => rfl) h
  | .sh _ _ _, h => reads_memory (k := .sh) (by decide) (fun _ _ _ => rfl) h
  | .sb _ _ _, h => reads_memory (k := .sb) (by decide) (fun _ _ _ => rfl) h
  | .beq _ _ _, h => reads_branch (k := .beq) (by decide) (fun _ _ _ => rfl) h
  | .bne _ _ _, h => reads_branch (k := .bne) (by decide) (fun _ _ _ => rfl) h
  | .j _, h => reads_jump (k := .j) (by decide) (fun _ _ _ => rfl) h
  | .jal _, h => reads_jump (k := .jal) (by decide) (fun _ _ _ => rfl) h

/-! ## The two passes (R280 to R284) -/

/-- A line that holds an instruction and no label. -/
def codeLine (t : Text) : SourceLine := ⟨none, some t⟩

theorem splitLines_of_reads {lines : List Text} {is : List Instr} (h : List.Forall₂ Reads lines is) :
    splitLines lines = .ok (lines.map codeLine) := by
  induction h with
  | nil => rfl
  | cons hread _ ih => simp only [splitLines, hread.split, ih, List.map_cons, codeLine]

theorem labelsFrom_codeLines (labels : LabelTable) (lines : List Text) (current : Nat) :
    labelsFrom current labels (lines.map codeLine) = .ok labels := by
  induction lines generalizing current with
  | nil => rfl
  | cons t lines ih => exact ih _

theorem instrsFrom_of_reads (labels : LabelTable) {lines : List Text} {is : List Instr}
    (h : List.Forall₂ Reads lines is) (current : Nat) : instrsFrom labels current (lines.map codeLine) = .ok is := by
  induction h generalizing current with
  | nil => rfl
  | cons hread _ ih => simp only [List.map_cons, instrsFrom, codeLine, hread.parse, ih]

theorem assembleInstrs_of_reads {lines : List Text} {is : List Instr} (h : List.Forall₂ Reads lines is) :
    assembleInstrs lines = .ok is := by
  simp only [assembleInstrs, splitLines_of_reads h, labelsFrom_codeLines, instrsFrom_of_reads [] h]

/-- The words of a program decode to its instructions (R97). -/
theorem map_decodeWith_encodeWith {m : OpcodeMap} (hm : m.wellFormed = true) (is : List Instr) :
    (is.map (encodeWith m)).map (decodeWith m) = is.map Except.ok := by
  simp [decodeWith_encodeWith hm]

/-- Settles O57: the lines read as their instructions, and whatever is assembled is encoded, which the decoder
undoes. -/
theorem assembledWordsDecodeToTheirLines : Obligations.AssembledWordsDecodeToTheirLines := by
  refine fun m hm => ⟨fun lines is h => ⟨?_, map_decodeWith_encodeWith hm is⟩, fun lines ws h => ?_⟩
  · rw [assembleWith, assembleInstrs_of_reads (h.imp fun _ _ => reads_of_spells)]
    rfl
  · unfold assembleWith at h
    cases his : assembleInstrs lines with
    | error e =>
      rw [his] at h
      cases h
    | ok is =>
      rw [his] at h
      cases h
      exact ⟨is, rfl, map_decodeWith_encodeWith hm is⟩

end Sys2Proof.Machine
end
